-- ==== Sys2Proof/Word.lean ====
section
/-! DEFINITION. Word.lean: the buses of the port level (00_scope.md R11, 30_encoding.md R53, R61) and the
names of a diagnosis (10_state.md R31). -/

namespace Sys2Proof

/-- `OPND_W`, the width of an operand bus and of a wide response bus (R11). -/
abbrev opndW : Nat := 64

/-- A 64-bit bus; bit `i` of the bus is bit `i` of the value it carries (R45). -/
abbrev Bus := BitVec 64

/-- The operation select `op[2:0]` (R53). -/
abbrev OpSelect := BitVec 3

/-- `errorKind` of a decoding result (R31). -/
inductive ErrorKind where
  | none
  | single
  | double
  deriving DecidableEq, Repr, Inhabited

/-- The response buses a command drives (R61), the constant configuration outputs apart. -/
structure ResponseBuses where
  status   : BitVec 2
  word     : Bus
  aux      : Bus
  data     : BitVec 32
  flag     : Bool
  kind     : BitVec 2
  posValid : Bool
  pos      : BitVec 8
  deriving DecidableEq, Repr, Inhabited

end Sys2Proof
end

