-- ==== Sys2Proof/Config.lean ====
section
/-! DEFINITION. Config.lean: what a build of the block fixes (00_scope.md R7, R12) and the free values
(41_decode.md R104, 70_reset_and_hazards.md R155), which no proof can see into. -/

namespace Sys2Proof

/-- `DATA_BITS`: the three legal builds (R7, R10). A build with any other width is refused, no block
exists (R152), so there is no fourth value. -/
inductive Width where
  | w8
  | w16
  | w32
  deriving DecidableEq, Repr, Inhabited

namespace Config

/-- The build whose reset state `State.reset` is. DESIGN CHOICE (log 2), unsafe: the spec leaves the
build open; `State.resetOf` gives the reset state of each. -/
def builtWidth : Width := .w8

/-- `T_SETTLE` less one. OPEN (R12, R161): any positive time (log 11). -/
opaque settleLessOne : Nat

/-- `T_SETTLE`, the time a command is held before its response is valid (R12). Positive, otherwise open. -/
def tSettle : Nat := settleLessOne + 1

/-- Free value: `errorDetected` of a drawn decoding result (R104, log 4). -/
opaque freeDetected : Nat → Bool

/-- Free value: `errorKind` of a drawn decoding result (R104, log 4). -/
opaque freeKind : Nat → ErrorKind

/-- Free value: `errorPosition` of a drawn decoding result, where its kind has one (R104, log 4, log 15). -/
opaque freePosition : Nat → Nat

/-- Free value: `correctedCodeword` of a drawn decoding result (R104, log 4). -/
opaque freeCorrected : Nat → Bus

/-- Free value: `originalData` of a drawn decoding result, before it is cut to `D` bits (R104, log 4). -/
opaque freeData : Nat → BitVec 32

/-- Free value: the response buses sampled before `T_SETTLE` has passed (R155, log 11). -/
opaque earlyResponse : Nat → ResponseBuses

end Config

end Sys2Proof
end

