-- ==== Sys2Proof/Syntax.lean ====
section
/-! DEFINITION. Syntax.lean: the commands of the block (30_encoding.md R55) as syntax, and a command as
it stands on the input buses (R53). Operands are naturals (00_scope.md R15, 30_encoding.md R54). -/

namespace Sys2Proof

/-- One command: a row of spec/opcode_table.json with the operands that row reads (R55, R57, R58).
A bus the row does not read is no part of the command's meaning (R59). -/
inductive Instr where
  /-- ENCODE: A = data (R80). -/
  | encode (data : Nat)
  /-- DECODE: A = the received codeword (R90). -/
  | decode (codeword : Nat)
  /-- INJECT: A = codeword, B = 0-based position (R110). -/
  | inject (codeword position : Nat)
  /-- ISPARITY: B = 0-based position (R120). -/
  | isParity (position : Nat)
  /-- POSITIONS: no operand (R122). -/
  | positions
  deriving DecidableEq, Repr

/-- The command format `CMD`: the values on the three input buses (R53, R69). -/
structure Command where
  op : OpSelect
  a  : Bus
  b  : Bus
  deriving DecidableEq, Repr

end Sys2Proof
end

