-- ==== Sys2Proof/WellFormed.lean ====
section
/-! DEFINITION. WellFormed.lean: which commands the port can present: every operand below `2^64`
(30_encoding.md R54, R60, R71). Value checks (InvalidInput, OutOfRange) belong to the operations. -/

namespace Sys2Proof

/-- A natural that an operand bus can carry (R60). -/
def fitsBus (n : Nat) : Bool := decide (n < 2 ^ opndW)

/-- A command the port can present: each operand it reads fits its bus (R54). -/
def Instr.wf : Instr → Bool
  | .encode data => fitsBus data
  | .decode codeword => fitsBus codeword
  | .inject codeword position => fitsBus codeword && fitsBus position
  | .isParity position => fitsBus position
  | .positions => true

end Sys2Proof
end

