-- ==== Sys2Proof/Machine/Operands.lean ====
section
/-! DEFINITION. Operands.lean: operand assembly (30_encoding.md R60). There is one form: the bus value
read as an unsigned natural, no immediate, register or addressing mode. -/

namespace Sys2Proof

/-- Operand A, `zext(a)` (R54, R57, R60). -/
def Command.operandA (c : Command) : Nat := c.a.toNat

/-- Operand B, `zext(b)` (R54, R58, R60). -/
def Command.operandB (c : Command) : Nat := c.b.toNat

/-- The bus value that carries a natural; the natural's low 64 bits (R45, R60). -/
def busOf (n : Nat) : Bus := BitVec.ofNat 64 n

end Sys2Proof
end

