-- ==== Sys2Proof/Decode.lean ====
section
/-! DEFINITION. Decode.lean: the command decoder (30_encoding.md R55, R56, R70), total on every value of
the three buses, and the encoder, written from the same table. -/

namespace Sys2Proof

/-- Why the decoder refuses a command: its operation select is reserved (R56). -/
inductive DecodeError where
  | reservedOp (op : OpSelect)
  deriving DecidableEq, Repr

/-- `decode_op` with the operands each operation reads (R55, R57, R58, R70). The op check is the only
one made here (R136). -/
def decode (c : Command) : Except DecodeError Instr :=
  match c.op.toNat with
  | 0b000 => .ok (.encode c.operandA)
  | 0b001 => .ok (.decode c.operandA)
  | 0b010 => .ok (.inject c.operandA c.operandB)
  | 0b011 => .ok (.isParity c.operandB)
  | 0b100 => .ok .positions
  | _     => .error (.reservedOp c.op)

/-- The operation select of a command (R55). -/
def Instr.opSelect : Instr → OpSelect
  | .encode _   => 0b000#3
  | .decode _   => 0b001#3
  | .inject _ _ => 0b010#3
  | .isParity _ => 0b011#3
  | .positions  => 0b100#3

/-- The values on the three buses that present a command (R53, R55). A bus the command does not read
is driven to zero: DESIGN CHOICE (log 9), safe, since it is ignored (R59). -/
def encode (i : Instr) : Command :=
  match i with
  | .encode data              => { op := i.opSelect, a := busOf data, b := 0 }
  | .decode codeword          => { op := i.opSelect, a := busOf codeword, b := 0 }
  | .inject codeword position => { op := i.opSelect, a := busOf codeword, b := busOf position }
  | .isParity position        => { op := i.opSelect, a := 0, b := busOf position }
  | .positions                => { op := i.opSelect, a := 0, b := 0 }

/-- The command whose bits are `w`, numbered as spec/opcode_table.json numbers them: `op` is bits 2..0.
The table numbers no further bit; `a` follows at bits 66..3 and `b` at bits 130..67: DESIGN CHOICE
(log 7). Bits from `nbits` up are zero. -/
def commandOfTableWord (nbits w : Nat) : Command :=
  let v := w % 2 ^ nbits
  { op := BitVec.ofNat 3 v, a := BitVec.ofNat 64 (v >>> 3), b := BitVec.ofNat 64 (v >>> 67) }

/-- What the decoder reads from a table row's word. -/
def decodeTableWord (nbits w : Nat) : Option Instr :=
  match decode (commandOfTableWord nbits w) with
  | .ok i    => some i
  | .error _ => none

end Sys2Proof
end

