-- ==== Sys2Proof/Machine/State.lean ====
section
/-! DEFINITION. State.lean: the machine's state as plain data, the outcomes of a command (00_scope.md R17,
60_exceptions.md R130), and the state after reset (70_reset_and_hazards.md R151). -/

namespace Sys2Proof.Machine

/-- The decoding result, exactly the five fields of 10_state.md R31. `errorPosition` is optional, not a
sentinel (R32). -/
structure DecodingResult where
  errorDetected     : Bool
  errorKind         : ErrorKind
  errorPosition     : Option Nat
  correctedCodeword : Nat
  originalData      : Nat
  deriving DecidableEq, Repr

/-- The result of POSITIONS (43_classify.md R122): 0-based indices, ascending (R123). -/
structure PositionClasses where
  dataPositions        : List Nat
  parityPositions      : List Nat
  globalParityPosition : Nat
  deriving DecidableEq, Repr

/-- The three errors of a command (60_exceptions.md R130). -/
inductive CodecError where
  /-- ENCODE of data that exceeds the configured width (R131). -/
  | invalidInput
  /-- INJECT or ISPARITY of a position outside the codeword (R132). -/
  | outOfRange
  /-- A reserved operation select (R133). -/
  | illegalCommand
  deriving DecidableEq, Repr

/-- The result of a command that completed without error (30_encoding.md R63). -/
inductive Result where
  /-- A codeword: ENCODE's or INJECT's. -/
  | codeword (c : Nat)
  /-- DECODE's decoding result. -/
  | decoded (r : DecodingResult)
  /-- ISPARITY's answer. -/
  | parity (isParity : Bool)
  /-- POSITIONS' answer. -/
  | classes (p : PositionClasses)
  deriving DecidableEq, Repr

/-- The outcome of one command: `ok(result)` or `err(E)` (R17, R130). An error is a value (R135). -/
inductive Reply where
  | ok (r : Result)
  | err (e : CodecError)
  deriving DecidableEq, Repr

/-- The constant configuration outputs (30_encoding.md R67), readable at all times. -/
structure ConfigOutputs where
  cfgDataBits   : BitVec 8
  cfgParityBits : BitVec 8
  cfgTotalBits  : BitVec 8
  deriving DecidableEq, Repr

/-- Every output bus of the block (30_encoding.md R61): the response and the configuration outputs. A view
of the state, `State.ports`; the state holds its sources once. -/
structure Ports extends ResponseBuses, ConfigOutputs where
  deriving DecidableEq, Repr

/-- The state. `width` is all the block itself holds (10_state.md R38): `r` and `N` are computed from it
(R39). `port` is what the host drives on the inputs (R53) and `response` what the block answers to it (R61),
`none` while the command on the port has no answer yet, so no earlier command's response outlives it (R34):
wires, not storage, held here because a step is a function of the state (log 1). `draws` is the model's own
counter of free draws (R16 `draw`, log 4). -/
structure State where
  width    : Width
  port     : Command
  response : Option Reply
  draws    : Nat
  deriving DecidableEq, Repr

/-- Reasons the machine stops with a fault. There are none: every error is a recoverable value of the
command's response (60_exceptions.md R130, R135) and every command completes (R160). Log 10, safe. -/
inductive Fault where
  deriving DecidableEq, Repr

/-- Reasons a step has no meaning in the model. -/
inductive Refusal where
  /-- Raised by `exec` in the arm of an instruction that has no meaning yet; no arm raises it now.
  Safe: a refused step proves nothing. -/
  | notModelled (mnemonic : String)
  deriving DecidableEq, Repr

/-- A block built with width `w`, right after power-up (70 R151): the configuration is the built one
(10_state.md R37). The inputs are the host's: all zero, DESIGN CHOICE (log 3), unsafe. The response is
that of the command on the inputs (R151), ENCODE 0, which is codeword 0 (R80). `draws` starts at 0:
DESIGN CHOICE (log 5). -/
def State.resetOf (w : Width) : State :=
  { width := w, port := { op := 0, a := 0, b := 0 }, response := some (.ok (.codeword 0)), draws := 0 }

/-- The machine right after reset, for the build `Config.builtWidth` (log 2). -/
def State.reset : State := State.resetOf Config.builtWidth

end Sys2Proof.Machine
end

