-- ==== Sys2Proof/Machine/Ops.lean ====
section
/-! DEFINITION. Ops.lean: the configuration (00_scope.md R7 to R10), the bit primitives (R13, R16), the
position classes (10_state.md R24 to R28), the parity groups (40_encode.md R83), completing a command and
raising an error (60_exceptions.md R130), and fetching the command on the port. -/

namespace Sys2Proof

/-- `D`, the number of payload bits (R7). -/
def Width.dataBits : Width → Nat
  | .w8  => 8
  | .w16 => 16
  | .w32 => 32

/-- `r`, the smallest natural with `2^r ≥ D + r + 1` (R8), searched upward; `r = D` always satisfies it. -/
def Width.parityBits (w : Width) : Nat :=
  ((List.range (w.dataBits + 1)).find? fun r => decide (w.dataBits + r + 1 ≤ 2 ^ r)).getD 0

/-- `N = D + r + 1`; the extra 1 is the global parity bit (R9). -/
def Width.totalBits (w : Width) : Nat := w.dataBits + w.parityBits + 1

end Sys2Proof

namespace Sys2Proof.Machine

/-- `c with [i] <- b` (R16). -/
def setBit (c i : Nat) (b : Bool) : Nat := if c.testBit i = b then c else c ^^^ 2 ^ i

/-- `flip(v, i) = v XOR 2^i` (R16). -/
def flipBit (v i : Nat) : Nat := v ^^^ 2 ^ i

/-- `xor_{j in S} f(j)`, `false` on the empty set (R16). -/
def xorOver (js : List Nat) (f : Nat → Bool) : Bool := js.foldr (fun j acc => f j ^^ acc) false

/-- The number whose set bits are the listed indices (30_encoding.md R68). -/
def maskOf (is : List Nat) : Nat := is.foldl (fun m i => m ||| 2 ^ i) 0

/-- `isPow2(p)`, the one predicate every position class rests on (10_state.md R25). -/
def isPow2 (p : Nat) : Bool := decide (1 ≤ p) && (p &&& (p - 1)) == 0

/-- The 0-based index of the global parity bit, `N - 1` (R24). -/
def globalIndex (w : Width) : Nat := w.totalBits - 1

/-- The 0-based index of the parity bit of group `i`, `2^i - 1` (R25). -/
def parityIndex (i : Nat) : Nat := 2 ^ i - 1

/-- Whether a 0-based index is an indexed parity position: its 1-based position is a power of two, and
it is not the global index (R25, R26; the test of 43_classify.md R120). -/
def isParityIndex (w : Width) (i : Nat) : Bool := isPow2 (i + 1) && decide (i ≤ w.totalBits - 2)

/-- The 0-based data positions in increasing order: the indices below `N - 1` whose 1-based position is
not a power of two (R26, R28). -/
def dataPositions (w : Width) : List Nat := (List.range (globalIndex w)).filter fun i => !isPow2 (i + 1)

/-- `dataPos(k)`, the index that holds data bit `k` (R28). -/
def dataPos (w : Width) (k : Nat) : Nat := (dataPositions w).getD k 0

/-- The 0-based indexed parity positions in increasing order (R25, 43_classify.md R122). -/
def parityPositions (w : Width) : List Nat := (List.range w.parityBits).map parityIndex

/-- The parity group `G_i`: the 1-based positions `j` in `[1, N-1]` with `j AND 2^i ≠ 0` (40_encode.md R83). -/
def parityGroup (w : Width) (i : Nat) : List Nat :=
  ((List.range (globalIndex w)).map (· + 1)).filter fun j => (j &&& 2 ^ i) != 0

/-- The XOR of the bits of `c` at the positions of `G_i` other than the parity position `2^i` itself
(40_encode.md R83, 41_decode.md R93: the expected parity of the group). -/
def expectedParity (w : Width) (i c : Nat) : Bool :=
  xorOver ((parityGroup w i).filter fun j => j != 2 ^ i) fun j => c.testBit (j - 1)

/-- The XOR of bits `0 .. n-1` of `c`: `popcount(c[n-1:0]) mod 2` (40_encode.md R84, 41_decode.md R92). -/
def parityBelow (n c : Nat) : Bool := xorOver (List.range n) c.testBit

/-- A command completes with an outcome: the response, and nothing else, is written (R17, 20_memory.md R48). -/
def State.complete (o : Reply) (s : State) : State := { s with response := some o }

/-- `return v`: the command completes with a result (R16). -/
def State.succeed (r : Result) (s : State) : State := s.complete (.ok r)

/-- `raise E`, the block's one way to take an exception: the response is the error, nothing is saved, no
mode changes and control goes nowhere (60_exceptions.md R130, R135, R138). There is no return from it:
the host presents its next command. -/
def State.raise (e : CodecError) (s : State) : State := s.complete (.err e)

/-- The command on the input port, which the next step runs; the block fetches nothing else
(10_state.md R21, 20_memory.md R51). -/
def State.fetch (s : State) : Command := s.port

/-- The host drives a command on the input buses (30_encoding.md R53). The response of the command before it
ends with it (10_state.md R34): nothing but the configuration is carried over (R38). -/
def State.present (c : Command) (s : State) : State := { s with port := c, response := none }

end Sys2Proof.Machine
end

