-- ==== Sys2Proof/Machine/Classify.lean ====
section
/-! DEFINITION. Classify.lean: ISPARITY and POSITIONS (43_classify.md R120 to R127). -/

namespace Sys2Proof.Machine

/-- ISPARITY (R120): `OutOfRange` iff `position ≥ N` (R121), else whether the index is an indexed parity
position; the global index is not (R127). -/
def execIsParity (position : Nat) (s : State) : Host.Outcome State Fault Refusal :=
  if s.width.totalBits ≤ position then .next (s.raise .outOfRange)
  else .next (s.succeed (.parity (isParityIndex s.width position)))

/-- The position classes of a configuration (R122). -/
def positionClasses (w : Width) : PositionClasses :=
  { dataPositions        := (List.range w.dataBits).map (dataPos w)
    parityPositions      := parityPositions w
    globalParityPosition := globalIndex w }

/-- POSITIONS (R122). Never an error (R126). -/
def execPositions (s : State) : Host.Outcome State Fault Refusal :=
  .next (s.succeed (.classes (positionClasses s.width)))

end Sys2Proof.Machine
end

