-- ==== Sys2Proof/Machine/Detect.lean ====
section
/-! DEFINITION. Detect.lean: DECODE (41_decode.md R90 to R107): global-parity checker, syndrome generator,
single-error locator, error correction and data extraction, and the free draw of R104. -/

namespace Sys2Proof.Machine

/-- Global-parity checker: the XOR of all `N` bits of the received word (R92). -/
def overallParity (w : Width) (c : Nat) : Bool := parityBelow w.totalBits c

/-- Syndrome generator: `2^i` is ORed in for each group whose received parity bit differs from the
expected one (R93). -/
def syndrome (w : Width) (c : Nat) : Nat :=
  (List.range w.parityBits).foldl
    (fun acc i => if expectedParity w i c != c.testBit (parityIndex i) then acc ||| 2 ^ i else acc) 0

/-- Data extraction: bit `k` of the data word is the codeword's bit at `dataPos(k)` (R101). -/
def extractData (w : Width) (c : Nat) : Nat :=
  ((List.range w.dataBits).map fun k => (c.testBit (dataPos w k)).toNat * 2 ^ k).sum

/-- A decoding result from a located diagnosis: the data is extracted from the corrected word, whatever
the branch (R101). -/
def resultOf (w : Width) (detected : Bool) (kind : ErrorKind) (position : Option Nat) (corrected : Nat) :
    DecodingResult :=
  { errorDetected := detected, errorKind := kind, errorPosition := position,
    correctedCodeword := corrected, originalData := extractData w corrected }

/-- Single-error locator and correction: the four-way classification (R95 to R99). A syndrome beyond the
codeword is applied as written (R105, log 12). -/
def diagnose (w : Width) (c : Nat) : DecodingResult :=
  if syndrome w c = 0 then
    if overallParity w c then
      resultOf w true .single (some (globalIndex w)) (flipBit c (globalIndex w))
    else resultOf w false .none none c
  else
    if overallParity w c then
      resultOf w true .single (some (syndrome w c - 1)) (flipBit c (syndrome w c - 1))
    else resultOf w true .double none c

/-- `draw DecodingResult` (R104): free, but of the type of 10_state.md R31 and with `errorPosition` present
iff the kind is `single` (R32). The free values are Config's; `n` names the draw (log 4). -/
def drawnResult (w : Width) (n : Nat) : DecodingResult :=
  { errorDetected     := Config.freeDetected n
    errorKind         := Config.freeKind n
    errorPosition     := if Config.freeKind n = .single then some (Config.freePosition n) else none
    correctedCodeword := (Config.freeCorrected n).toNat
    originalData      := (Config.freeData n).toNat % 2 ^ w.dataBits }

/-- DECODE (R90): a word with a bit at index `N` or above gives a free draw (R104), any other the
diagnosis. Never an error (R102). -/
def execDecode (codeword : Nat) (s : State) : Host.Outcome State Fault Refusal :=
  if 2 ^ s.width.totalBits ≤ codeword then
    .next { s.succeed (.decoded (drawnResult s.width s.draws)) with draws := s.draws + 1 }
  else .next (s.succeed (.decoded (diagnose s.width codeword)))

end Sys2Proof.Machine
end

