-- ==== Sys2Proof/Machine/Encode.lean ====
section
/-! DEFINITION. Encode.lean: ENCODE (40_encode.md R80 to R88): scatter, parity-bit calculator, global
parity. -/

namespace Sys2Proof.Machine

/-- Scatter: data bit `k` to index `dataPos(k)` of an all-zero word, `k = 0 .. D-1` (R82). -/
def scatter (w : Width) (data : Nat) : Nat :=
  (List.range w.dataBits).foldl (fun c k => setBit c (dataPos w k) (data.testBit k)) 0

/-- Parity-bit calculator: for `i = 0 .. r-1`, the XOR over the group `G_i`, the parity position itself
included while it is still zero, goes to index `2^i - 1` (R83). -/
def placeParity (w : Width) (c : Nat) : Nat :=
  (List.range w.parityBits).foldl
    (fun c i => setBit c (parityIndex i) (xorOver (parityGroup w i) fun j => c.testBit (j - 1))) c

/-- Global parity: the XOR of bits `0 .. N-2` goes to index `N - 1` (R84). -/
def placeGlobal (w : Width) (c : Nat) : Nat :=
  setBit c (globalIndex w) (parityBelow (globalIndex w) c)

/-- The codeword of a data word below `2^D` (R80). -/
def codewordOf (w : Width) (data : Nat) : Nat := placeGlobal w (placeParity w (scatter w data))

/-- ENCODE (R80): `InvalidInput` iff `data ≥ 2^D` (R81), else the codeword. -/
def execEncode (data : Nat) (s : State) : Host.Outcome State Fault Refusal :=
  if 2 ^ s.width.dataBits ≤ data then .next (s.raise .invalidInput)
  else .next (s.succeed (.codeword (codewordOf s.width data)))

end Sys2Proof.Machine
end

