-- ==== Sys2Proof/Machine/Inject.lean ====
section
/-! DEFINITION. Inject.lean: INJECT (42_inject.md R110 to R114), the fault injector. -/

namespace Sys2Proof.Machine

/-- INJECT (R110): `OutOfRange` iff `position ≥ N` (R111), else the word with that bit flipped; the word
itself is not checked (R112). -/
def execInject (codeword position : Nat) (s : State) : Host.Outcome State Fault Refusal :=
  if s.width.totalBits ≤ position then .next (s.raise .outOfRange)
  else .next (s.succeed (.codeword (flipBit codeword position)))

end Sys2Proof.Machine
end

