-- ==== Sys2Proof/Machine/Dispatch.lean ====
section
/-! DEFINITION. Dispatch.lean: one arm per command (30_encoding.md R55). -/

namespace Sys2Proof.Machine

def exec (i : Instr) (s : State) : Host.Outcome State Fault Refusal :=
  match i with
  | .encode data => Sys2Proof.Machine.execEncode data s
  | .decode codeword => Sys2Proof.Machine.execDecode codeword s
  | .inject codeword position => Sys2Proof.Machine.execInject codeword position s
  | .isParity position => Sys2Proof.Machine.execIsParity position s
  | .positions => Sys2Proof.Machine.execPositions s

end Sys2Proof.Machine
end

