-- ==== Sys2Proof/Machine/Reserved.lean ====
section
/-! DEFINITION. Reserved.lean: a command whose operation select is reserved (30_encoding.md R56). -/

namespace Sys2Proof.Machine

/-- A reserved `op` completes with `IllegalCommand`, reading neither operand (R56, 60_exceptions.md R133). -/
def execReserved (s : State) : Host.Outcome State Fault Refusal := .next (s.raise .illegalCommand)

end Sys2Proof.Machine
end

