-- ==== Sys2Proof/Machine/Step.lean ====
section
/-! DEFINITION. Step.lean: one step is one command, the one on the input port (00_scope.md R17). -/

namespace Sys2Proof.Machine

/-- One step: the command on the port is decoded and run; a reserved one completes with its error
(30_encoding.md R56, R70). The step adds nothing around `exec`: there is no program counter (10_state.md R21). -/
def step (s : State) : Host.Outcome State Fault Refusal :=
  match decode s.fetch with
  | .ok i    => exec i s
  | .error _ => execReserved s

/-- `s` with a table row's word on the input port, where the next step reads its command (log 7, log 8). -/
def State.withFetchWord (s : State) (nbits w : Nat) : State := s.present (commandOfTableWord nbits w)

end Sys2Proof.Machine
end

