-- ==== Sys2Proof/Laws/PerInstr.lean ====
section
/-! SUPPORT. Laws/PerInstr.lean: statements about every instruction as syntax, one lemma per constructor. -/

namespace Sys2Proof.Laws.OpSelect

/-- The encoding of an instruction carries its operation select and no reserved one (30_encoding.md R55, R56). -/
def Statement (i : Instr) : Prop := (Sys2Proof.encode i).op = i.opSelect ∧ i.opSelect.toNat < 5

theorem encode (data : Nat) : Statement (.encode data) := ⟨rfl, (by decide : 0 < 5)⟩

theorem decode (codeword : Nat) : Statement (.decode codeword) := ⟨rfl, (by decide : 1 < 5)⟩

theorem inject (codeword position : Nat) : Statement (.inject codeword position) := ⟨rfl, (by decide : 2 < 5)⟩

theorem isParity (position : Nat) : Statement (.isParity position) := ⟨rfl, (by decide : 3 < 5)⟩

theorem positions : Statement .positions := ⟨rfl, (by decide : 4 < 5)⟩

end Sys2Proof.Laws.OpSelect
end

