-- ==== Sys2Proof/Laws/Ops.lean ====
section
/-! SUPPORT. Laws/Ops.lean: the shared operations' own lemmas: bits, XOR over a list, the configurations and
the position classes. -/

namespace Sys2Proof

/-! ### The configurations (00_scope.md R10) -/

theorem Width.parityBits_w8 : Width.w8.parityBits = 4 := by decide
theorem Width.parityBits_w16 : Width.w16.parityBits = 5 := by decide
theorem Width.parityBits_w32 : Width.w32.parityBits = 6 := by decide
theorem Width.totalBits_w8 : Width.w8.totalBits = 13 := by decide
theorem Width.totalBits_w16 : Width.w16.totalBits = 22 := by decide
theorem Width.totalBits_w32 : Width.w32.totalBits = 39 := by decide

/-- Every codeword has a global bit, and more (10_state.md R24). -/
theorem Width.totalBits_pos (w : Width) : 0 < w.totalBits := by cases w <;> decide

/-- A position is at most 38 (30_encoding.md R61). -/
theorem Width.totalBits_le (w : Width) : w.totalBits ≤ 39 := by cases w <;> decide

end Sys2Proof

namespace Sys2Proof.Machine

/-! ### Bits -/

/-- What `flipBit` does to every bit. -/
theorem testBit_flipBit (v i j : Nat) : (flipBit v i).testBit j = (v.testBit j ^^ decide (i = j)) := by
  simp [flipBit, Nat.testBit_xor, Nat.testBit_two_pow]

/-- `flipBit` is its own inverse. -/
theorem flipBit_flipBit (v i : Nat) : flipBit (flipBit v i) i = v := by
  simp [flipBit]

/-- What `setBit` does to every bit: bit `i` becomes `b`, the others stay. -/
theorem testBit_setBit (c i j : Nat) (b : Bool) :
    (setBit c i b).testBit j = if i = j then b else c.testBit j := by
  unfold setBit
  by_cases hij : i = j
  · subst hij
    by_cases h : c.testBit i = b <;> simp [h, Nat.testBit_xor]
    cases b <;> simp_all
  · by_cases h : c.testBit i = b <;> simp [h, hij, Nat.testBit_xor]

/-- `setBit` below a bound keeps a word below `2^n`. -/
theorem setBit_lt {c i n : Nat} (b : Bool) (hc : c < 2 ^ n) (hi : i < n) : setBit c i b < 2 ^ n := by
  unfold setBit
  split
  · exact hc
  · exact Nat.xor_lt_two_pow hc (Nat.pow_lt_pow_right (by omega) hi)

/-! ### XOR over a list (00_scope.md R16) -/

@[simp] theorem xorOver_nil (f : Nat → Bool) : xorOver [] f = false := rfl

@[simp] theorem xorOver_cons (j : Nat) (js : List Nat) (f : Nat → Bool) :
    xorOver (j :: js) f = (f j ^^ xorOver js f) := rfl

/-- `xorOver` splits over an append. -/
theorem xorOver_append (js ks : List Nat) (f : Nat → Bool) :
    xorOver (js ++ ks) f = (xorOver js f ^^ xorOver ks f) := by
  induction js with
  | nil => simp
  | cons j js ih => simp [ih]

/-- `xorOver` reads only the listed indices. -/
theorem xorOver_congr {js : List Nat} {f g : Nat → Bool} (h : ∀ j ∈ js, f j = g j) :
    xorOver js f = xorOver js g := by
  induction js with
  | nil => rfl
  | cons j js ih =>
    rw [xorOver_cons, xorOver_cons, h j (by simp), ih fun k hk => h k (List.mem_cons_of_mem j hk)]

/-- `xorOver` is linear in the bits it reads. -/
theorem xorOver_xor (js : List Nat) (f g : Nat → Bool) :
    xorOver js (fun j => f j ^^ g j) = (xorOver js f ^^ xorOver js g) := by
  induction js with
  | nil => rfl
  | cons j js ih =>
    rw [xorOver_cons, xorOver_cons, xorOver_cons, ih]
    cases f j <;> cases g j <;> cases xorOver js f <;> cases xorOver js g <;> rfl

/-- `xorOver` over mapped indices. -/
theorem xorOver_map (js : List Nat) (g : Nat → Nat) (f : Nat → Bool) :
    xorOver (js.map g) f = xorOver js fun j => f (g j) := by
  induction js with
  | nil => rfl
  | cons j js ih => simp [ih]

/-- `xorOver` over the indices that pass a test. -/
theorem xorOver_filter (js : List Nat) (p f : Nat → Bool) :
    xorOver (js.filter p) f = xorOver js fun j => p j && f j := by
  induction js with
  | nil => rfl
  | cons j js ih => by_cases h : p j <;> simp [h, ih]

/-- A list without repeats sees one index once. -/
theorem xorOver_single {js : List Nat} (hn : js.Nodup) (a : Nat) (b : Bool) :
    xorOver js (fun j => decide (a = j) && b) = (decide (a ∈ js) && b) := by
  induction js with
  | nil => simp
  | cons j js ih =>
    obtain ⟨hj, hl⟩ := List.nodup_cons.1 hn
    rw [xorOver_cons, ih hl]
    by_cases h : a = j
    · subst h
      simp [hj]
    · simp [h]

/-! ### Position classes (10_state.md R24 to R28) -/

/-- A parity group is what R83 says: the 1-based positions of `[1, N-1]` with bit `i` set. -/
theorem mem_parityGroup {w : Width} {i j : Nat} :
    j ∈ parityGroup w i ↔ 1 ≤ j ∧ j ≤ globalIndex w ∧ j &&& 2 ^ i ≠ 0 := by
  simp only [parityGroup, List.mem_filter, List.mem_map, List.mem_range, bne_iff_ne]
  constructor
  · rintro ⟨⟨a, ha, rfl⟩, h⟩
    exact ⟨by omega, by omega, h⟩
  · rintro ⟨h1, h2, h⟩
    exact ⟨⟨j - 1, by omega, by omega⟩, h⟩

/-- A data position is what R26 says: an index below `N - 1` whose 1-based position is no power of two. -/
theorem mem_dataPositions {w : Width} {i : Nat} :
    i ∈ dataPositions w ↔ i < globalIndex w ∧ isPow2 (i + 1) = false := by
  simp [dataPositions]

/-- There are `D` data positions (R27). -/
theorem length_dataPositions (w : Width) : (dataPositions w).length = w.dataBits := by
  cases w <;> decide

/-- `dataPos` stays below the global index (R24, R28). -/
theorem dataPos_lt (w : Width) : ∀ k, k < w.dataBits → dataPos w k < globalIndex w := by
  cases w <;> decide

/-- A parity index stays below the global index (R25). -/
theorem parityIndex_lt (w : Width) : ∀ i, i < w.parityBits → parityIndex i < globalIndex w := by
  cases w <;> decide

/-- The `k`-th data position is an entry of the list (R28). -/
theorem getElem?_dataPositions (w : Width) (k : Nat) (hk : k < w.dataBits) :
    (dataPositions w)[k]? = some (dataPos w k) := by
  have h : k < (dataPositions w).length := by rw [length_dataPositions]; exact hk
  rw [dataPos, List.getD_eq_getElem?_getD, List.getElem?_eq_getElem h]
  rfl

/-- The data positions are distinct (R28). -/
theorem dataPositions_nodup (w : Width) : (dataPositions w).Nodup := List.nodup_range.filter _

/-- Distinct data bits have distinct places (R28). -/
theorem dataPos_injective {w : Width} {a b : Nat} (ha : a < w.dataBits) (hb : b < w.dataBits)
    (h : dataPos w a = dataPos w b) : a = b := by
  have h1 := getElem?_dataPositions w a ha
  rw [h, ← getElem?_dataPositions w b hb] at h1
  rw [← length_dataPositions] at ha
  exact (List.getElem?_inj ha (dataPositions_nodup w)).1 h1

/-- Distinct groups have distinct parity indices (R25). -/
theorem parityIndex_injective {a b : Nat} (h : parityIndex a = parityIndex b) : a = b := by
  have ha := Nat.two_pow_pos a
  have hb := Nat.two_pow_pos b
  unfold parityIndex at h
  exact Nat.pow_right_injective (Nat.le_refl 2) (by show 2 ^ a = 2 ^ b; omega)

/-- A parity group lists no position twice (40_encode.md R83). -/
theorem parityGroup_nodup (w : Width) (i : Nat) : (parityGroup w i).Nodup :=
  (List.Nodup.map (fun a b h => by omega) List.nodup_range).filter _

/-- Everything the locator can answer (41_decode.md R95). -/
theorem diagnose_cases (w : Width) (c : Nat) :
    (syndrome w c = 0 ∧ overallParity w c = false ∧ diagnose w c = resultOf w false .none none c) ∨
    (syndrome w c ≠ 0 ∧ overallParity w c = true ∧ diagnose w c =
      resultOf w true .single (some (syndrome w c - 1)) (flipBit c (syndrome w c - 1))) ∨
    (syndrome w c ≠ 0 ∧ overallParity w c = false ∧ diagnose w c = resultOf w true .double none c) ∨
    (syndrome w c = 0 ∧ overallParity w c = true ∧ diagnose w c =
      resultOf w true .single (some (globalIndex w)) (flipBit c (globalIndex w))) := by
  unfold diagnose
  by_cases h1 : syndrome w c = 0 <;> cases h2 : overallParity w c <;> simp [h1]

end Sys2Proof.Machine
end

