-- ==== Sys2Proof/Machine/Flags.lean ====
section
/-! DEFINITION. Flags.lean: the response encoding: the status and kind codes (30_encoding.md R62, R66),
the payload of each operation (R63 to R65, R68) and the configuration outputs (R67). The block has no
persistent flag (10_state.md R34). -/

namespace Sys2Proof.Machine

/-- `kind[1:0]` (R66). -/
def kindCode : ErrorKind → BitVec 2
  | .none   => 0b00#2
  | .single => 0b01#2
  | .double => 0b10#2

/-- `status[1:0]` of an error (R62). -/
def CodecError.status : CodecError → BitVec 2
  | .invalidInput   => 0b01#2
  | .outOfRange     => 0b10#2
  | .illegalCommand => 0b11#2

/-- All payload buses zero, with a status (R64, R65). -/
def zeroPayload (status : BitVec 2) : ResponseBuses :=
  { status := status, word := 0, aux := 0, data := 0, flag := false, kind := 0, posValid := false, pos := 0 }

/-- The payload a result drives (R63, R68). A value wider than its bus is cut to the bus, which no
command from the port gives except a drawn position (R61, log 6, log 15). -/
def Result.buses : Result → ResponseBuses
  | .codeword c => { zeroPayload 0b00#2 with word := BitVec.ofNat 64 c }
  | .decoded r =>
    { zeroPayload 0b00#2 with
      word     := BitVec.ofNat 64 r.correctedCodeword
      data     := BitVec.ofNat 32 r.originalData
      flag     := r.errorDetected
      kind     := kindCode r.errorKind
      posValid := r.errorKind == .single
      pos      := BitVec.ofNat 8 (r.errorPosition.getD 0) }
  | .parity isParity => { zeroPayload 0b00#2 with flag := isParity }
  | .classes p =>
    { zeroPayload 0b00#2 with
      word     := BitVec.ofNat 64 (maskOf p.dataPositions)
      aux      := BitVec.ofNat 64 (maskOf p.parityPositions)
      posValid := true
      pos      := BitVec.ofNat 8 p.globalParityPosition }

/-- The response buses of an outcome: the result's payload, or on an error a zero payload (R62, R63, R65). -/
def Reply.buses : Reply → ResponseBuses
  | .ok r  => r.buses
  | .err e => zeroPayload e.status

/-- The configuration outputs of a block of width `w`: `D`, `r` and `N` (R67). -/
def Width.outputs (w : Width) : ConfigOutputs :=
  { cfgDataBits   := BitVec.ofNat 8 w.dataBits
    cfgParityBits := BitVec.ofNat 8 w.parityBits
    cfgTotalBits  := BitVec.ofNat 8 w.totalBits }

/-- The configuration outputs beside given response buses (R61). -/
def portsOf (w : Width) (r : ResponseBuses) : Ports :=
  { toResponseBuses := r, toConfigOutputs := Width.outputs w }

/-- The configuration outputs, which have their value in every state (R67). -/
def State.configOutputs (s : State) : ConfigOutputs := Width.outputs s.width

/-- Every output bus, once the command on the port has its answer (R61); before that the response buses
have no value (10_state.md R34). -/
def State.ports (s : State) : Option Ports := s.response.map fun o => portsOf s.width o.buses

end Sys2Proof.Machine
end

