-- ==== Sys2Proof/Laws/State.lean ====
section
/-! SUPPORT. Laws/State.lean: one lemma per field per update of the state, and what each update leaves alone. -/

namespace Sys2Proof.Machine

variable (s : State) (o : Reply) (r : Result) (e : CodecError) (c : Command) (nbits w : Nat)

@[simp] theorem State.complete_width : (s.complete o).width = s.width := rfl
@[simp] theorem State.complete_port : (s.complete o).port = s.port := rfl
@[simp] theorem State.complete_response : (s.complete o).response = some o := rfl
@[simp] theorem State.complete_draws : (s.complete o).draws = s.draws := rfl

@[simp] theorem State.succeed_width : (s.succeed r).width = s.width := rfl
@[simp] theorem State.succeed_port : (s.succeed r).port = s.port := rfl
@[simp] theorem State.succeed_response : (s.succeed r).response = some (.ok r) := rfl
@[simp] theorem State.succeed_draws : (s.succeed r).draws = s.draws := rfl

@[simp] theorem State.raise_width : (s.raise e).width = s.width := rfl
@[simp] theorem State.raise_port : (s.raise e).port = s.port := rfl
@[simp] theorem State.raise_response : (s.raise e).response = some (.err e) := rfl
@[simp] theorem State.raise_draws : (s.raise e).draws = s.draws := rfl

@[simp] theorem State.present_width : (s.present c).width = s.width := rfl
@[simp] theorem State.present_port : (s.present c).port = c := rfl
@[simp] theorem State.present_response : (s.present c).response = none := rfl
@[simp] theorem State.present_draws : (s.present c).draws = s.draws := rfl
@[simp] theorem State.fetch_present : (s.present c).fetch = c := rfl

@[simp] theorem State.withFetchWord_width : (s.withFetchWord nbits w).width = s.width := rfl
@[simp] theorem State.withFetchWord_response : (s.withFetchWord nbits w).response = none := rfl
@[simp] theorem State.withFetchWord_draws : (s.withFetchWord nbits w).draws = s.draws := rfl
@[simp] theorem State.fetch_withFetchWord : (s.withFetchWord nbits w).fetch = commandOfTableWord nbits w := rfl

@[simp] theorem State.resetOf_width (v : Width) : (State.resetOf v).width = v := rfl

/-- Everything `complete` does: the response is written, all else stays. -/
theorem State.complete_eq : s.complete o = { s with response := some o } := rfl

/-- Everything `succeed` does. -/
theorem State.succeed_eq : s.succeed r = { s with response := some (.ok r) } := rfl

/-- Everything `raise` does: no register, mode or place is saved or changed (60_exceptions.md R138). -/
theorem State.raise_eq : s.raise e = { s with response := some (.err e) } := rfl

/-- Everything `present` does: the input buses change and the earlier response ends, all else stays. -/
theorem State.present_eq : s.present c = { s with port := c, response := none } := rfl

@[simp] theorem State.complete_ports : (s.complete o).ports = some (portsOf s.width o.buses) := rfl
@[simp] theorem State.succeed_ports : (s.succeed r).ports = some (portsOf s.width r.buses) := rfl
@[simp] theorem State.raise_ports : (s.raise e).ports = some (portsOf s.width (zeroPayload e.status)) := rfl
@[simp] theorem State.present_ports : (s.present c).ports = none := rfl
@[simp] theorem State.present_configOutputs : (s.present c).configOutputs = s.configOutputs := rfl
@[simp] theorem portsOf_configOutputs (v : Width) (b : ResponseBuses) :
    (portsOf v b).toConfigOutputs = Width.outputs v := rfl
@[simp] theorem portsOf_buses (v : Width) (b : ResponseBuses) : (portsOf v b).toResponseBuses = b := rfl

/-- The output buses are driven with a response exactly when there is one (10_state.md R34). -/
theorem State.ports_eq_some {p : Ports} :
    s.ports = some p ↔ ∃ o, s.response = some o ∧ portsOf s.width o.buses = p := by
  simp [State.ports, Option.map_eq_some_iff]

end Sys2Proof.Machine
end

