-- ==== Sys2Proof/Laws/Step.lean ====
section
/-! SUPPORT. Laws/Step.lean: what each meaning, the decoder and the step can do, said once. -/

namespace Sys2Proof

/-- Everything the decoder can answer (30_encoding.md R55, R56, R70). -/
theorem decode_cases (c : Command) :
    (c.op = 0b000#3 ∧ decode c = .ok (.encode c.operandA)) ∨
    (c.op = 0b001#3 ∧ decode c = .ok (.decode c.operandA)) ∨
    (c.op = 0b010#3 ∧ decode c = .ok (.inject c.operandA c.operandB)) ∨
    (c.op = 0b011#3 ∧ decode c = .ok (.isParity c.operandB)) ∨
    (c.op = 0b100#3 ∧ decode c = .ok .positions) ∨
    (5 ≤ c.op.toNat ∧ decode c = .error (.reservedOp c.op)) := by
  obtain ⟨op, a, b⟩ := c
  have h : ∀ x : BitVec 3, x = 0b000#3 ∨ x = 0b001#3 ∨ x = 0b010#3 ∨ x = 0b011#3 ∨ x = 0b100#3 ∨
      x = 0b101#3 ∨ x = 0b110#3 ∨ x = 0b111#3 := by decide
  rcases h op with rfl | rfl | rfl | rfl | rfl | rfl | rfl | rfl <;> simp [decode]

end Sys2Proof

namespace Sys2Proof.Machine

/-- Everything ENCODE can do (40_encode.md R80). -/
theorem execEncode_cases (data : Nat) (s : State) :
    (2 ^ s.width.dataBits ≤ data ∧ execEncode data s = .next (s.raise .invalidInput)) ∨
    (data < 2 ^ s.width.dataBits ∧
      execEncode data s = .next (s.succeed (.codeword (codewordOf s.width data)))) := by
  by_cases h : 2 ^ s.width.dataBits ≤ data
  · exact .inl ⟨h, if_pos h⟩
  · exact .inr ⟨Nat.lt_of_not_le h, if_neg h⟩

/-- Everything DECODE can do (41_decode.md R90, R104). -/
theorem execDecode_cases (c : Nat) (s : State) :
    (2 ^ s.width.totalBits ≤ c ∧ execDecode c s =
      .next { s.succeed (.decoded (drawnResult s.width s.draws)) with draws := s.draws + 1 }) ∨
    (c < 2 ^ s.width.totalBits ∧ execDecode c s = .next (s.succeed (.decoded (diagnose s.width c)))) := by
  by_cases h : 2 ^ s.width.totalBits ≤ c
  · exact .inl ⟨h, if_pos h⟩
  · exact .inr ⟨Nat.lt_of_not_le h, if_neg h⟩

/-- Everything INJECT can do (42_inject.md R110). -/
theorem execInject_cases (c p : Nat) (s : State) :
    (s.width.totalBits ≤ p ∧ execInject c p s = .next (s.raise .outOfRange)) ∨
    (p < s.width.totalBits ∧ execInject c p s = .next (s.succeed (.codeword (flipBit c p)))) := by
  by_cases h : s.width.totalBits ≤ p
  · exact .inl ⟨h, if_pos h⟩
  · exact .inr ⟨Nat.lt_of_not_le h, if_neg h⟩

/-- Everything ISPARITY can do (43_classify.md R120). -/
theorem execIsParity_cases (p : Nat) (s : State) :
    (s.width.totalBits ≤ p ∧ execIsParity p s = .next (s.raise .outOfRange)) ∨
    (p < s.width.totalBits ∧ execIsParity p s = .next (s.succeed (.parity (isParityIndex s.width p)))) := by
  by_cases h : s.width.totalBits ≤ p
  · exact .inl ⟨h, if_pos h⟩
  · exact .inr ⟨Nat.lt_of_not_le h, if_neg h⟩

/-- Everything a command can do when it answers a next state: it succeeds, it draws (R104), or it raises the
one error it can meet (60_exceptions.md R136). -/
theorem exec_next_cases {i : Instr} {s t : State} (h : exec i s = .next t) :
    (∃ r, t = s.succeed r) ∨
    (∃ c, i = .decode c ∧ 2 ^ s.width.totalBits ≤ c ∧
      t = { s.succeed (.decoded (drawnResult s.width s.draws)) with draws := s.draws + 1 }) ∨
    (∃ d, i = .encode d ∧ 2 ^ s.width.dataBits ≤ d ∧ t = s.raise .invalidInput) ∨
    (∃ p, s.width.totalBits ≤ p ∧ ((∃ c, i = .inject c p) ∨ i = .isParity p) ∧ t = s.raise .outOfRange) := by
  cases i with
  | encode d =>
    rcases execEncode_cases d s with ⟨g, e⟩ | ⟨_, e⟩ <;> cases e.symm.trans h
    · exact .inr (.inr (.inl ⟨d, rfl, g, rfl⟩))
    · exact .inl ⟨_, rfl⟩
  | decode c =>
    rcases execDecode_cases c s with ⟨g, e⟩ | ⟨_, e⟩ <;> cases e.symm.trans h
    · exact .inr (.inl ⟨c, rfl, g, rfl⟩)
    · exact .inl ⟨_, rfl⟩
  | inject c p =>
    rcases execInject_cases c p s with ⟨g, e⟩ | ⟨_, e⟩ <;> cases e.symm.trans h
    · exact .inr (.inr (.inr ⟨p, g, .inl ⟨c, rfl⟩, rfl⟩))
    · exact .inl ⟨_, rfl⟩
  | isParity p =>
    rcases execIsParity_cases p s with ⟨g, e⟩ | ⟨_, e⟩ <;> cases e.symm.trans h
    · exact .inr (.inr (.inr ⟨p, g, .inr rfl, rfl⟩))
    · exact .inl ⟨_, rfl⟩
  | positions =>
    cases h
    exact .inl ⟨_, rfl⟩

/-- The step on a command that decodes is that command's meaning. -/
theorem step_of_decode {s : State} {i : Instr} (h : decode s.fetch = .ok i) : step s = exec i s := by
  simp only [step, h]

/-- The step on a reserved operation select raises `IllegalCommand`. -/
theorem step_of_reserved {s : State} {e : DecodeError} (h : decode s.fetch = .error e) :
    step s = .next (s.raise .illegalCommand) := by
  simp only [step, h, execReserved]

end Sys2Proof.Machine
end

