-- ==== Sys2Proof/Machine/HostPort.lean ====
section
/-! DEFINITION. HostPort.lean: what a host does at the command port: it presents commands one at a time
(20_memory.md R49, 60_exceptions.md R142) and samples the response buses (70_reset_and_hazards.md R155). -/

namespace Sys2Proof.Machine

/-- What a host reads from the output buses when it has held the command on the port for `held` time units.
Once the step has answered that command, and from `T_SETTLE` on, the response; otherwise any value on the
response buses, a free value that advances the counter (R155, log 11). The configuration outputs are
constant (R67). -/
def sampleAfter (held : Nat) (s : State) : Ports × State :=
  match s.ports with
  | some p =>
    if Config.tSettle ≤ held then (p, s)
    else (portsOf s.width (Config.earlyResponse s.draws), { s with draws := s.draws + 1 })
  | none => (portsOf s.width (Config.earlyResponse s.draws), { s with draws := s.draws + 1 })

/-- A host presents commands one after another and collects their outcomes in order (R49). It stops where
a step stops. -/
def serve : List Command → State → Host.Outcome (List Reply × State) Fault Refusal
  | [], s => .next ([], s)
  | c :: cs, s =>
    match step (s.present c) with
    | .fault f   => .fault f
    | .refused r => .refused r
    | .next t =>
      match serve cs t with
      | .fault f      => .fault f
      | .refused r    => .refused r
      | .next (os, u) => .next (t.response.toList ++ os, u)

end Sys2Proof.Machine
end

