-- ==== Sys2Proof/Machine/HostProgram.lean ====
section
/-! DEFINITION. HostProgram.lean: the notation of commands and host programs (30_encoding.md R71) and how a
host runs one (70_reset_and_hazards.md R162). The variables are the host's, outside the block's state. A
program here is straight-line: control flow and memory are the host's own business (20_memory.md R41). -/

namespace Sys2Proof.Machine

/-- A host variable's name, or a field's. -/
abbrev Ident := List Char

/-- An operand as a host writes it (R71). -/
inductive HostOperand where
  | lit (n : Nat)
  | name (x : Ident)
  | field (x f : Ident)
  deriving DecidableEq, Repr

/-- A command as a host writes it (R71). -/
inductive HostCommand where
  | encode (a : HostOperand)
  | decode (a : HostOperand)
  | inject (a b : HostOperand)
  | isParity (b : HostOperand)
  | positions
  deriving DecidableEq, Repr

/-- One line: a command, its result bound to a name if the host wants it (R71). -/
structure HostLine where
  bind : Option Ident
  cmd  : HostCommand
  deriving DecidableEq, Repr

/-- The host's variables: the latest binding first. -/
abbrev HostEnv := List (Ident × Reply)

/-- The pieces of a text between the occurrences of a character. -/
def pieces (sep : Char) : List Char → List (List Char)
  | [] => [[]]
  | x :: xs =>
    if x = sep then [] :: pieces sep xs
    else
      match pieces sep xs with
      | [] => [[x]]
      | t :: ts => (x :: t) :: ts

/-- The space-separated words of a line. -/
def wordsOf (line : List Char) : List (List Char) := (pieces ' ' line).filter fun t => !t.isEmpty

/-- The value of a digit character, in either case of letter (log 16). -/
def digitValue (c : Char) : Nat :=
  if 48 ≤ c.toNat ∧ c.toNat ≤ 57 then c.toNat - 48
  else if 65 ≤ c.toNat ∧ c.toNat ≤ 70 then c.toNat - 55
  else if 97 ≤ c.toNat ∧ c.toNat ≤ 102 then c.toNat - 87
  else 16

/-- A non-empty digit string in a base, below `2^64` (R71). -/
def parseDigits (base : Nat) (ds : List Char) : Option Nat :=
  if ds.isEmpty || !ds.all (fun d => decide (digitValue d < base)) then none
  else
    let n := ds.foldl (fun acc d => acc * base + digitValue d) 0
    if fitsBus n then some n else none

/-- A decimal literal or a `0x` hexadecimal literal (R71). -/
def parseLiteral : List Char → Option Nat
  | '0' :: 'x' :: ds => parseDigits 16 ds
  | ds => parseDigits 10 ds

/-- A name: a letter, then letters, digits and underscores: DESIGN CHOICE (log 16). -/
def isName : List Char → Bool
  | [] => false
  | c :: cs => c.isAlpha && cs.all fun d => d.isAlphanum || d == '_'

/-- An operand: a literal, a name or `name.field` (R71). -/
def parseOperand (t : List Char) : Option HostOperand :=
  match parseLiteral t with
  | some n => some (.lit n)
  | none =>
    match pieces '.' t with
    | [x]    => if isName x then some (.name x) else none
    | [x, f] => if isName x && isName f then some (.field x f) else none
    | _      => none

/-- A word that ends in a comma, without the comma. -/
def stripComma (t : List Char) : Option (List Char) :=
  match t.reverse with
  | ',' :: rest => some rest.reverse
  | _ => none

/-- A command's words: the mnemonic in upper case, then its operands (R71). -/
def parseCommand : List (List Char) → Option HostCommand
  | [m] => if m = ['P', 'O', 'S', 'I', 'T', 'I', 'O', 'N', 'S'] then some .positions else none
  | [m, x] =>
    if m = ['E', 'N', 'C', 'O', 'D', 'E'] then (parseOperand x).map .encode
    else if m = ['D', 'E', 'C', 'O', 'D', 'E'] then (parseOperand x).map .decode
    else if m = ['I', 'S', 'P', 'A', 'R', 'I', 'T', 'Y'] then (parseOperand x).map .isParity
    else none
  | [m, x, y] =>
    if m = ['I', 'N', 'J', 'E', 'C', 'T'] then do
      let a ← parseOperand (← stripComma x)
      let b ← parseOperand y
      pure (.inject a b)
    else none
  | _ => none

/-- One line of a host program: `<command>` or `name <- <command>` (R71). -/
def parseLine (line : List Char) : Option HostLine :=
  match wordsOf line with
  | x :: ['<', '-'] :: rest =>
    if isName x then (parseCommand rest).map fun c => { bind := some x, cmd := c } else none
  | ws => (parseCommand ws).map fun c => { bind := none, cmd := c }

/-- The value of a field of a decoding result, where the field holds a natural (R71, 10_state.md R31). -/
def DecodingResult.fieldValue (r : DecodingResult) (f : Ident) : Option Nat :=
  if f = "errorPosition".toList then r.errorPosition
  else if f = "correctedCodeword".toList then some r.correctedCodeword
  else if f = "originalData".toList then some r.originalData
  else none

/-- The value the host substitutes for an operand (R71); none where the name has no such value
(log 16), as when it holds an error (log 18). -/
def HostOperand.value (env : HostEnv) : HostOperand → Option Nat
  | .lit n => some n
  | .name x =>
    match env.lookup x with
    | some (.ok (.codeword c)) => some c
    | _ => none
  | .field x f =>
    match env.lookup x with
    | some (.ok (.decoded r)) => r.fieldValue f
    | _ => none

/-- The command the host presents, its operands substituted (R71). -/
def HostCommand.resolve (env : HostEnv) : HostCommand → Option Instr
  | .encode a   => (a.value env).map .encode
  | .decode a   => (a.value env).map .decode
  | .inject a b => do pure (.inject (← a.value env) (← b.value env))
  | .isParity b => (b.value env).map .isParity
  | .positions  => some .positions

/-- The host's variables after a line: the name, if the line has one, is bound to the command's result (R71).
An error has no result (60_exceptions.md R130), and the spec does not say what the name holds then: the model
binds the error, which hides an earlier value of the name: DESIGN CHOICE (log 18). -/
def HostLine.bindIn (l : HostLine) (o : Option Reply) (env : HostEnv) : HostEnv :=
  match l.bind, o with
  | some x, some o => (x, o) :: env
  | _, _           => env

/-- A host runs a program: each command is presented, answered and bound before the next (R49, R71, R162).
None where a line cannot be presented (an operand with no value or too wide) or a step stops (log 16). -/
def runHostProgram : List HostLine → HostEnv → State → Option (HostEnv × State)
  | [], env, s => some (env, s)
  | l :: ls, env, s =>
    match l.cmd.resolve env with
    | none => none
    | some i =>
      if i.wf then
        match step (s.present (encode i)) with
        | .next t => runHostProgram ls (l.bindIn t.response env) t
        | .fault _ => none
        | .refused _ => none
      else none

end Sys2Proof.Machine
end

