-- ==== Sys2Proof/Safety.lean ====
section
/-! DEFINITION. Safety.lean: what a step may answer, said from the spec's declarative rules and not from
the model's meanings: the properties of a codeword (40_encode.md R82 to R86), the closed form of the
syndrome (41_decode.md R94), the classification (R95) and the type of a decoding result (10_state.md R31,
R32). -/

namespace Sys2Proof

/-- DECODE of a word with a bit at index `N` or above: the one command whose result is drawn (R104). -/
def Command.drawsResult (w : Width) (c : Command) : Bool :=
  c.op == 0b001#3 && decide (2 ^ w.totalBits ≤ c.operandA)

end Sys2Proof

namespace Sys2Proof.Machine

/-- `v` is the codeword of `data`: below `2^N` (R86), data bit `k` at `dataPos(k)` (R82), even parity over
every group and over the whole word (R85). -/
def IsCodewordOf (w : Width) (data v : Nat) : Prop :=
  v < 2 ^ w.totalBits ∧
  (∀ k, k < w.dataBits → v.testBit (dataPos w k) = data.testBit k) ∧
  (∀ i, i < w.parityBits → xorOver (parityGroup w i) (fun j => v.testBit (j - 1)) = false) ∧
  parityBelow w.totalBits v = false

/-- The XOR of the 1-based positions in `[1, N-1]` whose bit is set: the closed form of the syndrome (R94). -/
def positionXor (w : Width) (c : Nat) : Nat :=
  (List.range (globalIndex w)).foldr (fun i acc => if c.testBit i then (i + 1) ^^^ acc else acc) 0

/-- The located position and the corrected word that the syndrome and the overall parity select (R95). -/
def classification (w : Width) (c syn : Nat) (odd : Bool) : ErrorKind × Option Nat × Nat :=
  match decide (syn = 0), odd with
  | true, false  => (.none, none, c)
  | false, true  => (.single, some (syn - 1), c ^^^ 2 ^ (syn - 1))
  | false, false => (.double, none, c)
  | true, true   => (.single, some (w.totalBits - 1), c ^^^ 2 ^ (w.totalBits - 1))

/-- `r` is the diagnosis of a well-formed word `c` (R94 to R101). -/
def IsDiagnosisOf (w : Width) (c : Nat) (r : DecodingResult) : Prop :=
  (r.errorKind, r.errorPosition, r.correctedCodeword) =
    classification w c (positionXor w c) (parityBelow w.totalBits c) ∧
  r.errorDetected = decide (r.errorKind ≠ .none) ∧
  r.originalData < 2 ^ w.dataBits ∧
  ∀ k, k < w.dataBits → r.originalData.testBit k = r.correctedCodeword.testBit (dataPos w k)

/-- The type of a decoding result, as R104 bounds a draw: `errorPosition` present iff `single` (R32),
`correctedCodeword` below `2^64`, `originalData` below `2^D`. -/
def DecodingResult.Typed (w : Width) (r : DecodingResult) : Prop :=
  (r.errorPosition.isSome = true ↔ r.errorKind = .single) ∧
  r.correctedCodeword < 2 ^ 64 ∧ r.originalData < 2 ^ w.dataBits

/-- `o` is an outcome the spec allows for the command `c` on a block of width `w`. -/
def Answers (w : Width) (c : Command) (o : Reply) : Prop :=
  match c.op.toNat with
  | 0b000 =>
    if c.operandA < 2 ^ w.dataBits then ∃ v, o = .ok (.codeword v) ∧ IsCodewordOf w c.operandA v
    else o = .err .invalidInput
  | 0b001 =>
    ∃ r, o = .ok (.decoded r) ∧ r.Typed w ∧ (c.operandA < 2 ^ w.totalBits → IsDiagnosisOf w c.operandA r)
  | 0b010 =>
    if c.operandB < w.totalBits then o = .ok (.codeword (c.operandA ^^^ 2 ^ c.operandB))
    else o = .err .outOfRange
  | 0b011 =>
    if c.operandB < w.totalBits then
      ∃ ans, o = .ok (.parity ans) ∧ (ans = true ↔ ∃ i, i < w.parityBits ∧ c.operandB = 2 ^ i - 1)
    else o = .err .outOfRange
  | 0b100 =>
    ∃ p, o = .ok (.classes p) ∧
      p.dataPositions.length = w.dataBits ∧ p.dataPositions.Pairwise (· < ·) ∧
      (∀ i, i ∈ p.dataPositions ↔ i + 1 < w.totalBits ∧ ∀ k, i + 1 ≠ 2 ^ k) ∧
      p.parityPositions = (List.range w.parityBits).map (fun i => 2 ^ i - 1) ∧
      p.globalParityPosition = w.totalBits - 1
  | _ => o = .err .illegalCommand

/-- The command on the port has its response, and it is one the spec allows for that command
(70_reset_and_hazards.md R151, 30_encoding.md R63). -/
def State.Settled (s : State) : Prop := ∃ o, s.response = some o ∧ Answers s.width s.port o

/-- The invariant of the machine, kept by steps and by everything a host does: whatever response there is,
is one the spec allows for the command on the port, never an earlier command's (10_state.md R34). -/
def State.Inv (s : State) : Prop := ∀ o, s.response = some o → Answers s.width s.port o

/-- A decoding result whose data word a host may trust, as far as the block can tell
(70_reset_and_hazards.md R156). -/
def DecodingResult.mayTrust (r : DecodingResult) : Bool := r.errorKind != .double

/-- A run is safe where no step stops: the block completes every command (70_reset_and_hazards.md R160). -/
def State.Completes (s : State) : Prop := ∃ t, step s = .next t

end Sys2Proof.Machine
end

