-- ==== Sys2Proof/Certificates/Slice0/Obligations.lean ====
section
/-! DEFINITION. Obligations.lean: the statements for the provers. Each docstring names the rule of spec/ it
formalises; where a statement rests on a choice of the model, it names the log entry. -/

open Sys2Proof Sys2Proof.Machine

/-! ### Encoding -/

/-- 30_encoding.md R53, R55, R60: no bit of a command's encoding is dropped. The value of a bus the command
does not read is the encoder's (log 9), and the decoder does not look at it. -/
def Obligations.DecodeOfEncodeIsTheCommand : Prop :=
  ∀ i : Instr, i.wf = true → Sys2Proof.decode (Sys2Proof.encode i) = .ok i

/-- 30_encoding.md R54, R55, R57, R58: what the decoder reads from the buses is a command the port can
present, and encoding it again gives the same select and the same value on every bus it reads. -/
def Obligations.EncodeOfDecodeKeepsWhatIsRead : Prop :=
  ∀ (c : Command) (i : Instr), Sys2Proof.decode c = .ok i →
    i.wf = true ∧ (Sys2Proof.encode i).op = c.op ∧
    ((c.op = 0b000#3 ∨ c.op = 0b001#3 ∨ c.op = 0b010#3) → (Sys2Proof.encode i).a = c.a) ∧
    ((c.op = 0b010#3 ∨ c.op = 0b011#3) → (Sys2Proof.encode i).b = c.b)

/-- 30_encoding.md R70: each value of `op` selects one of the five operations or the `IllegalCommand`
outcome, whatever `a` and `b` hold. -/
def Obligations.EveryOpSelectsOneOutcome : Prop :=
  ∀ s : State,
    (s.port.op = 0b000#3 → step s = exec (.encode s.port.a.toNat) s) ∧
    (s.port.op = 0b001#3 → step s = exec (.decode s.port.a.toNat) s) ∧
    (s.port.op = 0b010#3 → step s = exec (.inject s.port.a.toNat s.port.b.toNat) s) ∧
    (s.port.op = 0b011#3 → step s = exec (.isParity s.port.b.toNat) s) ∧
    (s.port.op = 0b100#3 → step s = exec .positions s) ∧
    ((s.port.op = 0b101#3 ∨ s.port.op = 0b110#3 ∨ s.port.op = 0b111#3) →
      step s = .next { s with response := some (.err .illegalCommand) })

/-- 60_exceptions.md R133: `IllegalCommand` is what a reserved `op` raises, whatever the operands hold, and
nothing else raises it. -/
def Obligations.IllegalCommandIffReservedOp : Prop :=
  ∀ s : State,
    (5 ≤ s.port.op.toNat → step s = .next { s with response := some (.err .illegalCommand) }) ∧
    (∀ t, step s = .next t → t.response = some (.err .illegalCommand) → 5 ≤ s.port.op.toNat)

/-- 30_encoding.md R55: words written out from the table of operation selects, numbered as the opcode table
numbers its bits; the places of the operand bits are the model's (log 7). -/
def Obligations.TableWordsDecode : Prop :=
  decodeTableWord 8 0b000 = some (.encode 0) ∧
  decodeTableWord 8 0b001 = some (.decode 0) ∧
  decodeTableWord 8 0b010 = some (.inject 0 0) ∧
  decodeTableWord 8 0b011 = some (.isParity 0) ∧
  decodeTableWord 8 0b100 = some .positions ∧
  decodeTableWord 8 0b101 = none ∧ decodeTableWord 8 0b110 = none ∧ decodeTableWord 8 0b111 = none

/-- 00_scope.md R17, 10_state.md R21: a step is the command on the port and nothing around it. -/
def Obligations.StepRunsTheCommandOnThePort : Prop :=
  ∀ (s : State) (i : Instr), Sys2Proof.decode s.port = .ok i → step s = exec i s

/-- 30_encoding.md R59 (with R57, R58): changing a bus a command does not read changes nothing but that bus. -/
def Obligations.UnreadOperandsAreIgnored : Prop :=
  ∀ (s t : State) (a' b' : Bus), step s = .next t →
    ((s.port.op = 0b000#3 ∨ s.port.op = 0b001#3) →
      step { s with port := { s.port with b := b' } } = .next { t with port := { s.port with b := b' } }) ∧
    (s.port.op = 0b011#3 →
      step { s with port := { s.port with a := a' } } = .next { t with port := { s.port with a := a' } }) ∧
    (4 ≤ s.port.op.toNat →
      step { s with port := { s.port with a := a', b := b' } } =
        .next { t with port := { s.port with a := a', b := b' } })

/-- 30_encoding.md R60: an operand is the sum of its bus's bits, with no extension, scaling or shift. -/
def Obligations.OperandIsTheSumOfItsBits : Prop :=
  ∀ c : Command,
    c.operandA = ((List.range 64).map fun i => (c.a.getLsbD i).toNat * 2 ^ i).sum ∧
    c.operandB = ((List.range 64).map fun i => (c.b.getLsbD i).toNat * 2 ^ i).sum

/-! ### Configuration and position classes -/

/-- 00_scope.md R8: `r` is the smallest natural with `2^r ≥ D + r + 1`. -/
def Obligations.ParityBitsIsTheLeastThatFits : Prop :=
  ∀ w : Width, w.dataBits + w.parityBits + 1 ≤ 2 ^ w.parityBits ∧
    ∀ r, w.dataBits + r + 1 ≤ 2 ^ r → w.parityBits ≤ r

/-- 00_scope.md R9, R10: the three legal configurations, each of them a build. -/
def Obligations.LegalConfigurations : Prop :=
  (∀ w : Width, w.totalBits = w.dataBits + w.parityBits + 1) ∧
  ∀ w : Width,
    match w with
    | .w8  => (w.dataBits, w.parityBits, w.totalBits, 2 ^ w.parityBits) = (8, 4, 13, 16)
    | .w16 => (w.dataBits, w.parityBits, w.totalBits, 2 ^ w.parityBits) = (16, 5, 22, 32)
    | .w32 => (w.dataBits, w.parityBits, w.totalBits, 2 ^ w.parityBits) = (32, 6, 39, 64)

/-- 10_state.md R25, R26: the one test every position class rests on says "power of two". -/
def Obligations.PowerOfTwoTestIsExact : Prop :=
  ∀ p : Nat, isPow2 p = true ↔ ∃ i, p = 2 ^ i

/-- 10_state.md R27: `r` indexed parity positions, `D` data positions and one global position make up the
`N` positions; the powers of two in `[1, N-1]` are `2^0 .. 2^(r-1)`. -/
def Obligations.PositionCountsAddUp : Prop :=
  ∀ w : Width,
    ((List.range (w.totalBits - 1)).filter fun i => isPow2 (i + 1)).length = w.parityBits ∧
    ((List.range (w.totalBits - 1)).filter fun i => !isPow2 (i + 1)).length = w.dataBits ∧
    w.parityBits + w.dataBits + 1 = w.totalBits ∧
    ∀ i, i < w.totalBits - 1 → (isPow2 (i + 1) = true ↔ i ∈ (List.range w.parityBits).map fun k => 2 ^ k - 1)

/-- 43_classify.md R124: the three lists POSITIONS gives partition the codeword. -/
def Obligations.PositionsPartitionTheCodeword : Prop :=
  ∀ s : State, ∃ p : PositionClasses,
    exec .positions s = .next { s with response := some (.ok (.classes p)) } ∧
    p.dataPositions.length = s.width.dataBits ∧ p.parityPositions.length = s.width.parityBits ∧
    ∀ i, i < s.width.totalBits →
      (i ∈ p.dataPositions ∧ i ∉ p.parityPositions ∧ i ≠ p.globalParityPosition) ∨
      (i ∉ p.dataPositions ∧ i ∈ p.parityPositions ∧ i ≠ p.globalParityPosition) ∨
      (i ∉ p.dataPositions ∧ i ∉ p.parityPositions ∧ i = p.globalParityPosition)

/-- 10_state.md R28, 43_classify.md R122, R123: the position lists of each width, ascending, with their masks
on the response buses. -/
def Obligations.PositionsListsTheClasses : Prop :=
  ∀ s : State, ∃ (p : PositionClasses) (t : State) (out : Ports),
    exec .positions s = .next t ∧ t = { s with response := some (.ok (.classes p)) } ∧ t.ports = some out ∧
    (∀ k, k < s.width.dataBits → p.dataPositions[k]? = some (dataPos s.width k)) ∧
    p.dataPositions.length = s.width.dataBits ∧ p.dataPositions.Pairwise (· < ·) ∧
    match s.width with
    | .w8 => p = { dataPositions := [2, 4, 5, 6, 8, 9, 10, 11]
                   parityPositions := [0, 1, 3, 7], globalParityPosition := 12 } ∧
        out.word = 0xF74 ∧ out.aux = 0x8B ∧ out.posValid = true ∧ out.pos = 12
    | .w16 => p = { dataPositions := [2, 4, 5, 6, 8, 9, 10, 11, 12, 13, 14, 16, 17, 18, 19, 20]
                    parityPositions := [0, 1, 3, 7, 15], globalParityPosition := 21 } ∧
        out.word = 0x1F7F74 ∧ out.aux = 0x808B ∧ out.posValid = true ∧ out.pos = 21
    | .w32 => p = { dataPositions := [2, 4, 5, 6, 8, 9, 10, 11, 12, 13, 14, 16, 17, 18, 19, 20, 21, 22, 23,
                      24, 25, 26, 27, 28, 29, 30, 32, 33, 34, 35, 36, 37]
                    parityPositions := [0, 1, 3, 7, 15, 31], globalParityPosition := 38 } ∧
        out.word = 0x3F7FFF7F74 ∧ out.aux = 0x8000808B ∧ out.posValid = true ∧ out.pos = 38

/-! ### ENCODE -/

/-- 60_exceptions.md R131: ENCODE of oversized data fails with `InvalidInput` and nothing else changes; no
other command raises it. -/
def Obligations.InvalidInputIffOversizedData : Prop :=
  (∀ (s : State) (data : Nat), 2 ^ s.width.dataBits ≤ data →
    exec (.encode data) s = .next { s with response := some (.err .invalidInput) }) ∧
  ∀ (i : Instr) (s t : State), exec i s = .next t → t.response = some (.err .invalidInput) →
    ∃ data, i = .encode data ∧ 2 ^ s.width.dataBits ≤ data

/-- 40_encode.md R82: data bit `k` goes to index `dataPos(k)`; and, the spec's own inference there, after the
scatter every other index is 0. -/
def Obligations.EncodeScattersTheData : Prop :=
  ∀ (s : State) (data : Nat), data < 2 ^ s.width.dataBits →
    (∃ v, exec (.encode data) s = .next { s with response := some (.ok (.codeword v)) } ∧
      ∀ k, k < s.width.dataBits → v.testBit (dataPos s.width k) = data.testBit k) ∧
    (∀ k, k < s.width.dataBits → (scatter s.width data).testBit (dataPos s.width k) = data.testBit k) ∧
    ∀ j, (∀ k, k < s.width.dataBits → j ≠ dataPos s.width k) → (scatter s.width data).testBit j = false

/-- 40_encode.md R83: the group `G_i`, and the parity bit at 1-based position `2^i` as the XOR of the rest of
its group. -/
def Obligations.EncodeSetsEachParityBit : Prop :=
  ∀ (s : State) (data : Nat), data < 2 ^ s.width.dataBits →
    ∃ v, exec (.encode data) s = .next { s with response := some (.ok (.codeword v)) } ∧
      ∀ i, i < s.width.parityBits →
        (∀ j, j ∈ parityGroup s.width i ↔ 1 ≤ j ∧ j ≤ s.width.totalBits - 1 ∧ j &&& 2 ^ i ≠ 0) ∧
        v.testBit (2 ^ i - 1) =
          xorOver ((parityGroup s.width i).filter fun j => j != 2 ^ i) (fun j => v.testBit (j - 1))

/-- 40_encode.md R84: the global bit is the parity of the number of ones in bits `0 .. N-2`. -/
def Obligations.EncodeSetsTheGlobalParity : Prop :=
  ∀ (s : State) (data : Nat), data < 2 ^ s.width.dataBits →
    ∃ v, exec (.encode data) s = .next { s with response := some (.ok (.codeword v)) } ∧
      (v.testBit (s.width.totalBits - 1)).toNat =
        ((List.range (s.width.totalBits - 1)).filter v.testBit).length % 2

/-- 40_encode.md R85: even parity over every group and over the whole word. The spec's own inference beside
it: no two groups share a parity position, so every parity bit is the XOR of its group in the scattered
word, whatever the order of computing them. -/
def Obligations.EncodeGivesEvenParity : Prop :=
  (∀ (s : State) (data : Nat), data < 2 ^ s.width.dataBits →
    ∃ v, exec (.encode data) s = .next { s with response := some (.ok (.codeword v)) } ∧
      (∀ i, i < s.width.parityBits → xorOver (parityGroup s.width i) (fun j => v.testBit (j - 1)) = false) ∧
      ((List.range s.width.totalBits).filter v.testBit).length % 2 = 0 ∧
      ∀ i, i < s.width.parityBits → v.testBit (2 ^ i - 1) =
        xorOver (parityGroup s.width i) (fun j => (scatter s.width data).testBit (j - 1))) ∧
  ∀ (w : Width) (i k : Nat), i ≠ k → 2 ^ k ∉ parityGroup w i

/-- 40_encode.md R86: every codeword ENCODE returns is below `2^N`. -/
def Obligations.EncodeFitsTheCodeword : Prop :=
  ∀ (s : State) (data : Nat), data < 2 ^ s.width.dataBits →
    ∃ v, exec (.encode data) s = .next { s with response := some (.ok (.codeword v)) } ∧ v < 2 ^ s.width.totalBits

/-- 40_encode.md R88: ENCODE is injective on `[0, 2^D)`, and DECODE of its codeword gives kind `none` and the
data back. -/
def Obligations.EncodeIsInjectiveAndRoundTrips : Prop :=
  ∀ (s : State) (d : Nat), d < 2 ^ s.width.dataBits →
    ∃ c, exec (.encode d) s = .next { s with response := some (.ok (.codeword c)) } ∧
      (∀ s' : State, s'.width = s.width → exec (.decode c) s' = .next { s' with
        response := some (.ok (.decoded { errorDetected := false, errorKind := .none, errorPosition := none,
                                          correctedCodeword := c, originalData := d })) }) ∧
      ∀ d', d' < 2 ^ s.width.dataBits →
        exec (.encode d') s = .next { s with response := some (.ok (.codeword c)) } → d' = d

/-- 40_encode.md R80, 70_reset_and_hazards.md R158: zero is a valid data word and a valid codeword. -/
def Obligations.ZeroIsValidDataAndCodeword : Prop :=
  ∀ s : State,
    exec (.encode 0) s = .next { s with response := some (.ok (.codeword 0)) } ∧
    exec (.decode 0) s = .next { s with
      response := some (.ok (.decoded { errorDetected := false, errorKind := .none, errorPosition := none,
                                        correctedCodeword := 0, originalData := 0 })) }

/-! ### DECODE -/

/-- 41_decode.md R92: the overall parity is the parity of the number of ones among all `N` bits. -/
def Obligations.OverallParityCountsTheOnes : Prop :=
  ∀ (w : Width) (c : Nat),
    (overallParity w c).toNat = ((List.range w.totalBits).filter c.testBit).length % 2

/-- 41_decode.md R93: bit `i` of the syndrome says whether group `i`'s expected parity, the XOR of the
received bits of `G_i` other than position `2^i`, disagrees with the received parity bit. -/
def Obligations.SyndromeBitsAreGroupMismatches : Prop :=
  ∀ (w : Width) (c : Nat),
    syndrome w c < 2 ^ w.parityBits ∧
    ∀ i, i < w.parityBits →
      ((syndrome w c).testBit i = true ↔
        xorOver ((parityGroup w i).filter fun j => j != 2 ^ i) (fun j => c.testBit (j - 1)) ≠
          c.testBit (2 ^ i - 1))

/-- 41_decode.md R94: the closed form of the syndrome, and what flipping a set of indices of a codeword does
to the syndrome and the overall parity. -/
def Obligations.SyndromeIsTheXorOfSetPositions : Prop :=
  (∀ (w : Width) (c : Nat), syndrome w c = positionXor w c) ∧
  ∀ (s : State) (data : Nat) (flips : List Nat), data < 2 ^ s.width.dataBits →
    flips.Nodup → (∀ i ∈ flips, i < s.width.totalBits) →
    ∃ v, exec (.encode data) s = .next { s with response := some (.ok (.codeword v)) } ∧
      syndrome s.width (flips.foldl flipBit v) =
        ((flips.filter fun i => decide (i < s.width.totalBits - 1)).map (· + 1)).foldr (· ^^^ ·) 0 ∧
      (overallParity s.width (flips.foldl flipBit v)).toNat = flips.length % 2

/-- 41_decode.md R95 to R100: the four-way classification of a well-formed word. -/
def Obligations.DecodeClassifiesFourWays : Prop :=
  ∀ (s : State) (c : Nat), c < 2 ^ s.width.totalBits →
    ∃ r : DecodingResult, exec (.decode c) s = .next { s with response := some (.ok (.decoded r)) } ∧
      (syndrome s.width c = 0 → overallParity s.width c = false →
        r.errorDetected = false ∧ r.errorKind = .none ∧ r.errorPosition = none ∧ r.correctedCodeword = c) ∧
      (syndrome s.width c ≠ 0 → overallParity s.width c = true →
        r.errorDetected = true ∧ r.errorKind = .single ∧ r.errorPosition = some (syndrome s.width c - 1) ∧
        r.correctedCodeword = c ^^^ 2 ^ (syndrome s.width c - 1)) ∧
      (syndrome s.width c ≠ 0 → overallParity s.width c = false →
        r.errorDetected = true ∧ r.errorKind = .double ∧ r.errorPosition = none ∧ r.correctedCodeword = c) ∧
      (syndrome s.width c = 0 → overallParity s.width c = true →
        r.errorDetected = true ∧ r.errorKind = .single ∧ r.errorPosition = some (s.width.totalBits - 1) ∧
        r.correctedCodeword = c ^^^ 2 ^ (s.width.totalBits - 1))

/-- 41_decode.md R101: the data word holds the corrected codeword's bits at the data positions, in every
branch, and is below `2^D`. -/
def Obligations.DecodeExtractsTheDataBits : Prop :=
  ∀ (s : State) (c : Nat), c < 2 ^ s.width.totalBits →
    ∃ r : DecodingResult, exec (.decode c) s = .next { s with response := some (.ok (.decoded r)) } ∧
      r.originalData < 2 ^ s.width.dataBits ∧
      ∀ k, k < s.width.dataBits →
        r.originalData.testBit k = r.correctedCodeword.testBit (dataPos s.width k)

/-- 41_decode.md R102: DECODE raises no error for any operand; its status is always `00`. -/
def Obligations.DecodeNeverRaises : Prop :=
  ∀ (s : State) (c : Nat), ∃ (t : State) (r : DecodingResult) (out : Ports),
    exec (.decode c) s = .next t ∧ t.response = some (.ok (.decoded r)) ∧
    t.ports = some out ∧ out.status = 0b00#2

/-- 41_decode.md R104, 10_state.md R31, R32: a word with a bit at index `N` or above gives some decoding result
of the right type, and one draw is used. The counter is the model's own field (log 4). -/
def Obligations.WideDecodeGivesATypedResult : Prop :=
  ∀ (s : State) (c : Nat), 2 ^ s.width.totalBits ≤ c →
    ∃ r : DecodingResult, r.Typed s.width ∧
      exec (.decode c) s = .next { s with response := some (.ok (.decoded r)), draws := s.draws + 1 }

/-- 41_decode.md R105: a syndrome beyond the codeword is applied as written, and does not disturb the data;
with the rule's example. The reading is the spec's decision (log 12). -/
def Obligations.SyndromeBeyondTheCodeword : Prop :=
  (∀ s : State, s.width = .w8 → exec (.decode 0xAAD) s = .next { s with
    response := some (.ok (.decoded { errorDetected := true, errorKind := .single, errorPosition := some 13,
                                      correctedCodeword := 0x2AAD, originalData := 0xA5 })) }) ∧
  ∀ (s : State) (c : Nat), c < 2 ^ s.width.totalBits →
    overallParity s.width c = true → s.width.totalBits < syndrome s.width c →
    s.width.totalBits ≤ syndrome s.width c - 1 ∧ syndrome s.width c - 1 ≤ 2 ^ s.width.parityBits - 2 ∧
    exec (.decode c) s = .next { s with
      response := some (.ok (.decoded { errorDetected := true, errorKind := .single
                                        errorPosition := some (syndrome s.width c - 1)
                                        correctedCodeword := c ^^^ 2 ^ (syndrome s.width c - 1)
                                        originalData := extractData s.width c })) }

/-- 41_decode.md R107: three flips can be miscorrected. Flipping indices 0, 1 and 2 of any codeword is
reported as a single error in the global bit, and the data word given is wrong. -/
def Obligations.TripleFlipIsMiscorrected : Prop :=
  ∀ (s : State) (d : Nat), d < 2 ^ s.width.dataBits →
    ∃ c, exec (.encode d) s = .next { s with response := some (.ok (.codeword c)) } ∧
      ∃ r : DecodingResult,
        exec (.decode (c ^^^ 0b111)) s = .next { s with response := some (.ok (.decoded r)) } ∧
        r.errorKind = .single ∧ r.errorPosition = some (s.width.totalBits - 1) ∧ r.originalData = d ^^^ 1

/-- 41_decode.md R106, item 2: every single flip of a codeword is located and corrected. -/
def Obligations.SingleFlipIsCorrected : Prop :=
  ∀ (s : State) (d p : Nat), d < 2 ^ s.width.dataBits → p < s.width.totalBits →
    ∃ c c', exec (.encode d) s = .next { s with response := some (.ok (.codeword c)) } ∧
      exec (.inject c p) s = .next { s with response := some (.ok (.codeword c')) } ∧
      exec (.decode c') s = .next { s with
        response := some (.ok (.decoded { errorDetected := true, errorKind := .single, errorPosition := some p,
                                          correctedCodeword := c, originalData := d })) }

/-- 41_decode.md R106, item 3: every flip of two distinct indices is detected as a double error, never
corrected as a single one. -/
def Obligations.DoubleFlipIsDetected : Prop :=
  ∀ (s : State) (d p q : Nat), d < 2 ^ s.width.dataBits → p < s.width.totalBits → q < s.width.totalBits →
    p ≠ q →
    ∃ c c1 c2, exec (.encode d) s = .next { s with response := some (.ok (.codeword c)) } ∧
      exec (.inject c p) s = .next { s with response := some (.ok (.codeword c1)) } ∧
      exec (.inject c1 q) s = .next { s with response := some (.ok (.codeword c2)) } ∧
      ∃ r : DecodingResult, exec (.decode c2) s = .next { s with response := some (.ok (.decoded r)) } ∧
        r.errorKind = .double ∧ r.errorDetected = true ∧ r.errorPosition = none ∧ r.correctedCodeword = c2

/-- 70_reset_and_hazards.md R156 with 41_decode.md R106: with at most two flips of a codeword, a result whose
kind is not `double` holds the data word that was encoded. -/
def Obligations.TrustedDataIsTheSentData : Prop :=
  ∀ (s : State) (d : Nat) (flips : List Nat), d < 2 ^ s.width.dataBits →
    flips.Nodup → flips.length ≤ 2 → (∀ i ∈ flips, i < s.width.totalBits) →
    ∃ c, exec (.encode d) s = .next { s with response := some (.ok (.codeword c)) } ∧
      ∃ r : DecodingResult,
        exec (.decode (flips.foldl flipBit c)) s = .next { s with response := some (.ok (.decoded r)) } ∧
        (r.mayTrust = true ↔ flips.length ≠ 2) ∧
        (r.mayTrust = true → r.originalData = d ∧ r.correctedCodeword = c)

/-! ### INJECT and ISPARITY -/

/-- 60_exceptions.md R132: `OutOfRange` is what INJECT and ISPARITY raise for a position at or beyond `N`, and
nothing else raises it. -/
def Obligations.OutOfRangeIffPositionBeyond : Prop :=
  (∀ (s : State) (c p : Nat), s.width.totalBits ≤ p →
    exec (.inject c p) s = .next { s with response := some (.err .outOfRange) } ∧
    exec (.isParity p) s = .next { s with response := some (.err .outOfRange) }) ∧
  ∀ (i : Instr) (s t : State), exec i s = .next t → t.response = some (.err .outOfRange) →
    ∃ p, s.width.totalBits ≤ p ∧ ((∃ c, i = .inject c p) ∨ i = .isParity p)

/-- 42_inject.md R112, R113: INJECT flips the one bit and no other of any word, a word that fits its bus still
fits it, and a second INJECT at the same position gives the word back. -/
def Obligations.InjectFlipsExactlyOneBit : Prop :=
  ∀ (s : State) (c p : Nat), p < s.width.totalBits →
    ∃ v, exec (.inject c p) s = .next { s with response := some (.ok (.codeword v)) } ∧
      v.testBit p = !c.testBit p ∧ (∀ j, j ≠ p → v.testBit j = c.testBit j) ∧
      (c < 2 ^ 64 → v < 2 ^ 64) ∧
      exec (.inject v p) s = .next { s with response := some (.ok (.codeword c)) }

/-- 43_classify.md R120, R127: ISPARITY answers true at exactly the indices `2^i - 1`, `i < r`; false at the
global index. -/
def Obligations.IsParityAnswersTheParityIndices : Prop :=
  ∀ (s : State) (p : Nat), p < s.width.totalBits →
    ∃ ans, exec (.isParity p) s = .next { s with response := some (.ok (.parity ans)) } ∧
      (ans = true ↔ ∃ i, i < s.width.parityBits ∧ p = 2 ^ i - 1) ∧
      (p = s.width.totalBits - 1 → ans = false)

/-- 43_classify.md R125: the queries agree with each other, with where ENCODE writes and where DECODE reads. -/
def Obligations.QueriesAgreeWithEncodeAndDecode : Prop :=
  ∀ (s : State), ∃ p : PositionClasses,
    exec .positions s = .next { s with response := some (.ok (.classes p)) } ∧
    (∀ q, q < s.width.totalBits →
      exec (.isParity q) s = .next { s with response := some (.ok (.parity (decide (q ∈ p.parityPositions)))) }) ∧
    (∀ d, d < 2 ^ s.width.dataBits →
      ∃ v, exec (.encode d) s = .next { s with response := some (.ok (.codeword v)) } ∧
        ∀ (k i : Nat), p.dataPositions[k]? = some i → v.testBit i = d.testBit k) ∧
    ∀ c, c < 2 ^ s.width.totalBits →
      ∃ r : DecodingResult, exec (.decode c) s = .next { s with response := some (.ok (.decoded r)) } ∧
        ∀ (k i : Nat), p.dataPositions[k]? = some i →
          r.originalData.testBit k = r.correctedCodeword.testBit i

/-! ### Response buses -/

/-- 30_encoding.md R63, R64: the payload each operation's result drives, for values that fit their buses (R61);
a field not given is zero, and for a decoding result of the type of 10_state.md R31, R32 `pos` is 0 whenever
`pos_valid` is. What a bus shows of a wider value is the model's (log 6, log 15) and is not said here. -/
def Obligations.PayloadOfEachResult : Prop :=
  ∀ (s : State) (out : Ports), s.ports = some out →
    (∀ c, s.response = some (.ok (.codeword c)) →
      out.status = 0b00#2 ∧ (c < 2 ^ 64 → out.word.toNat = c) ∧ out.aux = 0 ∧ out.data = 0 ∧
      out.flag = false ∧ out.kind = 0 ∧ out.posValid = false ∧ out.pos = 0) ∧
    (∀ r : DecodingResult, s.response = some (.ok (.decoded r)) → r.Typed s.width →
      out.status = 0b00#2 ∧ out.word.toNat = r.correctedCodeword ∧ out.aux = 0 ∧
      out.data.toNat = r.originalData ∧ out.flag = r.errorDetected ∧ out.kind = kindCode r.errorKind ∧
      (out.posValid = true ↔ r.errorKind = .single) ∧
      (∀ p, r.errorPosition = some p → p < 256 → out.pos.toNat = p) ∧
      (r.errorPosition = none → out.pos = 0) ∧ (out.posValid = false → out.pos = 0)) ∧
    (∀ ans, s.response = some (.ok (.parity ans)) →
      out.status = 0b00#2 ∧ out.word = 0 ∧ out.aux = 0 ∧ out.data = 0 ∧ out.flag = ans ∧
      out.kind = 0 ∧ out.posValid = false ∧ out.pos = 0) ∧
    ∀ p : PositionClasses, s.response = some (.ok (.classes p)) →
      out.status = 0b00#2 ∧
      (maskOf p.dataPositions < 2 ^ 64 → out.word.toNat = maskOf p.dataPositions) ∧
      (maskOf p.parityPositions < 2 ^ 64 → out.aux.toNat = maskOf p.parityPositions) ∧
      out.data = 0 ∧ out.flag = false ∧ out.kind = 0 ∧ out.posValid = true ∧
      (p.globalParityPosition < 256 → out.pos.toNat = p.globalParityPosition)

/-- 30_encoding.md R62, R65: the status codes; on an error every payload bus is zero and the configuration
outputs are unaffected. -/
def Obligations.ErrorsDriveAZeroPayload : Prop :=
  ∀ (s : State) (out : Ports), s.ports = some out →
    ((∃ r, s.response = some (.ok r)) ↔ out.status = 0b00#2) ∧
    (s.response = some (.err .invalidInput) ↔ out.status = 0b01#2) ∧
    (s.response = some (.err .outOfRange) ↔ out.status = 0b10#2) ∧
    (s.response = some (.err .illegalCommand) ↔ out.status = 0b11#2) ∧
    (out.status ≠ 0b00#2 →
      out.word = 0 ∧ out.aux = 0 ∧ out.data = 0 ∧ out.flag = false ∧ out.kind = 0 ∧
      out.posValid = false ∧ out.pos = 0 ∧
      out.cfgDataBits.toNat = s.width.dataBits ∧ out.cfgParityBits.toNat = s.width.parityBits ∧
      out.cfgTotalBits.toNat = s.width.totalBits)

/-- 30_encoding.md R66: the kind codes, and `11` is never driven. -/
def Obligations.KindCodeIsNeverEleven : Prop :=
  kindCode .none = 0b00#2 ∧ kindCode .single = 0b01#2 ∧ kindCode .double = 0b10#2 ∧
  ∀ (s : State) (out : Ports), s.ports = some out → out.kind ≠ 0b11#2

/-- 30_encoding.md R68: bit `i` of `word` (`aux`) is set iff `i` is a data (parity) position, and listing the
set bits upward gives the sequences back. -/
def Obligations.PositionMasksGiveTheSequences : Prop :=
  ∀ s : State, ∃ (p : PositionClasses) (t : State) (out : Ports),
    exec .positions s = .next t ∧ t = { s with response := some (.ok (.classes p)) } ∧ t.ports = some out ∧
    (∀ i, out.word.getLsbD i = true ↔ i ∈ p.dataPositions) ∧
    (∀ i, out.aux.getLsbD i = true ↔ i ∈ p.parityPositions) ∧
    (List.range 64).filter (fun i => out.word.getLsbD i) = p.dataPositions ∧
    (List.range 64).filter (fun i => out.aux.getLsbD i) = p.parityPositions

/-- 30_encoding.md R61: every value a command from the port returns, a drawn result apart (R104), fits its bus:
the bus carries the value itself. -/
def Obligations.ResponsesFitTheirBuses : Prop :=
  ∀ s t : State, step s = .next t → s.port.drawsResult s.width = false →
    ∃ out : Ports, t.ports = some out ∧
    (∀ c, t.response = some (.ok (.codeword c)) → out.word.toNat = c) ∧
    (∀ r : DecodingResult, t.response = some (.ok (.decoded r)) →
      out.word.toNat = r.correctedCodeword ∧ out.data.toNat = r.originalData ∧
      ∀ p, r.errorPosition = some p → out.pos.toNat = p ∧ p ≤ 62) ∧
    (∀ p : PositionClasses, t.response = some (.ok (.classes p)) →
      out.word.toNat = maskOf p.dataPositions ∧ out.aux.toNat = maskOf p.parityPositions ∧
      out.pos.toNat = p.globalParityPosition)

/-- 30_encoding.md R67: the configuration outputs are `D`, `r` and `N` at all times: in any state, whether or
not there is a response, whatever command is presented, after any step, and in a sample taken at any time. -/
def Obligations.ConfigurationOutputsAreConstant : Prop :=
  ∀ s : State,
    (s.configOutputs.cfgDataBits.toNat = s.width.dataBits ∧
      s.configOutputs.cfgParityBits.toNat = s.width.parityBits ∧
      s.configOutputs.cfgTotalBits.toNat = s.width.totalBits) ∧
    (∀ out : Ports, s.ports = some out → out.toConfigOutputs = s.configOutputs) ∧
    (∀ c, (s.present c).configOutputs = s.configOutputs) ∧
    (∀ t, step s = .next t → t.configOutputs = s.configOutputs) ∧
    ∀ held, (sampleAfter held s).1.toConfigOutputs = s.configOutputs ∧
      (sampleAfter held s).2.configOutputs = s.configOutputs

/-- 70_reset_and_hazards.md R155, 00_scope.md R12, 10_state.md R34: a host that presents a command and holds it
for `T_SETTLE`, a positive time, or longer samples the response of that command, one the spec allows for it,
and no earlier one; sampling at any time changes no command, configuration or response. How an earlier sample
is drawn is the model's (log 11). -/
def Obligations.SettledSampleIsTheResponse : Prop :=
  0 < Config.tSettle ∧
  ∀ (s t : State) (c : Command), step (s.present c) = .next t →
    (∃ o, t.response = some o ∧ Answers s.width c o ∧
      ∀ held, Config.tSettle ≤ held → sampleAfter held t = (portsOf s.width o.buses, t)) ∧
    ∀ held, (sampleAfter held t).2.width = s.width ∧ (sampleAfter held t).2.port = c ∧
      (sampleAfter held t).2.response = t.response

/-! ### The whole machine -/

/-- The invariant of the machine: after every step, from any state whatever, the command on the port has a
response and it is one the spec allows for that command, said in the declarative terms of 40_encode.md R82 to
R86, 41_decode.md R94 to R104, 42_inject.md R110, 43_classify.md R120, R122 and 30_encoding.md R56. -/
def Obligations.EveryStepSettlesTheResponse : Prop :=
  ∀ s t : State, step s = .next t → t.Settled

/-- 10_state.md R34, R38: what the host does keeps the invariant. Presenting a command ends the earlier
response, whatever it was, and sampling brings no response about; a settled state meets the invariant. -/
def Obligations.HostActionsKeepTheInvariant : Prop :=
  ∀ s : State, (s.Settled → s.Inv) ∧ (∀ c, (s.present c).Inv) ∧
    ∀ held, s.Inv → (sampleAfter held s).2.Inv

/-- 10_state.md R34, R38: between two commands the block carries its configuration and nothing else: once the
next command is presented, no response bus has a value, and states that differed in command and response are
the same. The counter of draws beside it is the model's own (log 4), and without a drawing command what is
answered does not depend on it. -/
def Obligations.OnlyTheConfigurationIsCarriedOver : Prop :=
  ∀ (s s' : State) (c : Command),
    (s.present c).response = none ∧ (s.present c).ports = none ∧
    (s.width = s'.width → s.draws = s'.draws → s.present c = s'.present c) ∧
    (s.width = s'.width → c.drawsResult s.width = false → ∀ t t' : State,
      step (s.present c) = .next t → step (s'.present c) = .next t' →
      t.response = t'.response ∧ t.ports = t'.ports)

/-- 70_reset_and_hazards.md R151: at reset the response is that of the command on the inputs. Which command
that is, is the model's choice (log 3). -/
def Obligations.ResetIsSettled : Prop :=
  ∀ w : Width, (State.resetOf w).Settled

/-- 10_state.md R37: after reset the configuration outputs hold the constants of the built width. -/
def Obligations.ResetHoldsTheConfiguration : Prop :=
  ((State.resetOf .w8).configOutputs.cfgDataBits = 8 ∧ (State.resetOf .w8).configOutputs.cfgParityBits = 4 ∧
    (State.resetOf .w8).configOutputs.cfgTotalBits = 13) ∧
  ((State.resetOf .w16).configOutputs.cfgDataBits = 16 ∧ (State.resetOf .w16).configOutputs.cfgParityBits = 5 ∧
    (State.resetOf .w16).configOutputs.cfgTotalBits = 22) ∧
  ((State.resetOf .w32).configOutputs.cfgDataBits = 32 ∧ (State.resetOf .w32).configOutputs.cfgParityBits = 6 ∧
    (State.resetOf .w32).configOutputs.cfgTotalBits = 39)

/-- 70_reset_and_hazards.md R160: every command completes, from every state; none can hang. -/
def Obligations.EveryCommandCompletes : Prop :=
  ∀ s : State, s.Completes ∧ ∀ i : Instr, ∃ t, exec i s = .next t

/-- 20_memory.md R48, 10_state.md R23, R38: the frame of every command: nothing but the response changes (and
the model's own counter of draws, by one, where the command draws: log 4). -/
def Obligations.CommandsChangeOnlyTheResponse : Prop :=
  ∀ s t : State, step s = .next t →
    t = { s with response := t.response, draws := s.draws + (s.port.drawsResult s.width).toNat }

/-- 20_memory.md R48: the outcome is a function of the configuration and the command alone, drawn results apart
(R104, log 14); so repeating a command gives the same outcome. -/
def Obligations.OutcomeDependsOnTheCommandAlone : Prop :=
  ∀ s s' t t' : State, s.width = s'.width → s.port = s'.port → s.port.drawsResult s.width = false →
    step s = .next t → step s' = .next t' → t.response = t'.response ∧ step t = .next t

/-- 20_memory.md R49: served in any order, each command gets the outcome it gets alone, drawn results apart
(R104, log 14), and the configuration is the same at the end. -/
def Obligations.OutcomesAreIndependentOfOrder : Prop :=
  ∀ (cs : List Command) (s : State), (∀ c ∈ cs, c.drawsResult s.width = false) →
    ∃ (os : List Reply) (t : State), serve cs s = .next (os, t) ∧ t.width = s.width ∧ os.length = cs.length ∧
      ∀ (k : Nat) (c : Command) (u : State), cs[k]? = some c → step (s.present c) = .next u →
        os[k]? = u.response

/-- 60_exceptions.md R135, R138: an error is an outcome like any other: it leaves nothing but the response, and
the next command answers as if the failed one had never been presented. -/
def Obligations.ErrorsLeaveNoTrace : Prop :=
  ∀ (s t : State) (e : CodecError), step s = .next t → t.response = some (.err e) →
    t = { s with response := some (.err e) } ∧
    ∀ c : Command, t.present c = s.present c ∧ step (t.present c) = step (s.present c)

/-- 70_reset_and_hazards.md R162, 30_encoding.md R71: a host program that runs to its end leaves the block's
configuration as it was. The running of a program is the model's rendering (log 16,
log 18). -/
def Obligations.HostProgramsKeepTheConfiguration : Prop :=
  ∀ (ls : List HostLine) (env env' : HostEnv) (s t : State),
    runHostProgram ls env s = some (env', t) → t.width = s.width

/-- 30_encoding.md R71: every operand the port can carry has a decimal literal, and only those. -/
def Obligations.DecimalLiteralsDenoteThemselves : Prop :=
  ∀ n : Nat, parseLiteral (Nat.toDigits 10 n) = if n < 2 ^ 64 then some n else none
end

