-- ==== Sys2Proof/Tests/Slice0.lean ====
section
/-! SUPPORT. Tests/Slice0.lean: expected values from spec/95_test_vectors.md (ids E, V, I, Q, K) and its hand
checks; the WellFormed smoke test; words written out from 30_encoding.md R55; and, for every statement with
hypotheses, a concrete witness of them. -/

namespace Sys2Proof.Tests

open Sys2Proof Sys2Proof.Machine

/-- A block of width `w`, right after reset, with a command on its port. -/
def at' (w : Width) (op : OpSelect) (a b : Bus) : State := (State.resetOf w).present { op := op, a := a, b := b }

/-- The response of a next state. -/
def replyOf : Host.Outcome State Fault Refusal → Option Reply
  | .next t => t.response
  | _ => none

/-- The output buses of a next state. -/
def portsAfter : Host.Outcome State Fault Refusal → Option Ports
  | .next t => t.ports
  | _ => none

/-! ### WellFormed: each check refuses an operand of 65 bits, and accepts the largest of 64 -/

theorem test_wf_encode : (Instr.encode (2 ^ 64)).wf = false ∧ (Instr.encode (2 ^ 64 - 1)).wf = true := by decide
theorem test_wf_decode : (Instr.decode (2 ^ 64)).wf = false ∧ (Instr.decode (2 ^ 64 - 1)).wf = true := by decide
theorem test_wf_inject_codeword :
    (Instr.inject (2 ^ 64) 0).wf = false ∧ (Instr.inject (2 ^ 64 - 1) 0).wf = true := by decide
theorem test_wf_inject_position :
    (Instr.inject 0 (2 ^ 64)).wf = false ∧ (Instr.inject 0 (2 ^ 64 - 1)).wf = true := by decide
theorem test_wf_isParity : (Instr.isParity (2 ^ 64)).wf = false ∧ (Instr.isParity (2 ^ 64 - 1)).wf = true := by decide

/-! ### Decode: words written out from R55 (K1 to K6) -/

theorem test_decode_encode : decode { op := 0b000#3, a := 0xA5#64, b := 0xFFFF#64 } = .ok (.encode 0xA5) := by rfl
theorem test_decode_decode : decode { op := 0b001#3, a := 0x1DB#64, b := 7#64 } = .ok (.decode 0x1DB) := by rfl
theorem test_decode_inject : decode { op := 0b010#3, a := 0x1D3#64, b := 3#64 } = .ok (.inject 0x1D3 3) := by rfl
theorem test_decode_isParity : decode { op := 0b011#3, a := 0x1234#64, b := 7#64 } = .ok (.isParity 7) := by rfl
theorem test_decode_positions : decode { op := 0b100#3, a := 1#64, b := 2#64 } = .ok .positions := by rfl
theorem test_decode_reserved_101 :
    decode { op := 0b101#3, a := 1#64, b := 2#64 } = .error (.reservedOp 0b101#3) := by rfl
theorem test_decode_reserved_110 :
    decode { op := 0b110#3, a := 0#64, b := 0#64 } = .error (.reservedOp 0b110#3) := by rfl
theorem test_decode_reserved_111 :
    decode { op := 0b111#3, a := 0#64, b := 0#64 } = .error (.reservedOp 0b111#3) := by rfl
theorem test_tableWord_operands : decodeTableWord 131 (0b010 + 0x1D3 * 2 ^ 3 + 5 * 2 ^ 67) = some (.inject 0x1D3 5) := by
  decide

/-! ### One step each, from spec/95 -/

/-- E5, with B ignored (K4): the hand-checked codeword. -/
theorem test_encode_E5 : replyOf (step (at' .w8 0b000#3 0xA5 0xFFFF)) = some (.ok (.codeword 0xA27)) := by decide +kernel
/-- E17. -/
theorem test_encode_E17 : replyOf (step (at' .w32 0b000#3 0xDEADBEEF 0)) = some (.ok (.codeword 0x77D5B76E77)) := by
  decide +kernel
/-- E7: oversized data, status 01 and a zero payload. -/
theorem test_encode_E7 : (portsAfter (step (at' .w8 0b000#3 0x100 0))).map (fun p => (p.status, p.word)) =
    some (0b01#2, 0) := by decide
/-- V23: a double flip, at the port. -/
theorem test_decode_V23 : (portsAfter (step (at' .w16 0b001#3 0x2001DB 0))).map (·.toResponseBuses) =
    some { status := 0b00#2, word := 0x2001DB, aux := 0, data := 0x1A, flag := true, kind := 0b10#2,
           posValid := false, pos := 0 } := by decide +kernel
/-- V32: the largest syndrome, beyond the codeword (R105). -/
theorem test_decode_V32 : replyOf (step (at' .w32 0b001#3 0x7755B7AE77 0)) =
    some (.ok (.decoded { errorDetected := true, errorKind := .single, errorPosition := some 62,
                          correctedCodeword := 0x4000007755B7AE77, originalData := 0xDEADBAEF })) := by decide +kernel
/-- V33: a wide word; the status is known, the result is not. -/
theorem test_decode_V33_status : (portsAfter (step (at' .w8 0b001#3 0x2A27 0))).map (·.status) = some 0b00#2 := by rfl
/-- I2: the global bit can be flipped. -/
theorem test_inject_I2 : replyOf (step (at' .w8 0b010#3 0xA27 12)) = some (.ok (.codeword 0x1A27)) := by decide +kernel
/-- I3: position `N`. -/
theorem test_inject_I3 : replyOf (step (at' .w8 0b010#3 0xA27 13)) = some (.err .outOfRange) := by decide
/-- Q11, the highest parity index of D = 16. -/
theorem test_isParity_Q11 : replyOf (step (at' .w16 0b011#3 0 15)) = some (.ok (.parity true)) := by decide
/-- Q10: 1-based 16 is a power of two, but out of range. -/
theorem test_isParity_Q10 : replyOf (step (at' .w8 0b011#3 0 15)) = some (.err .outOfRange) := by decide
/-- Q24, at the port. -/
theorem test_positions_Q24 : (portsAfter (step (at' .w32 0b100#3 1 2))).map (fun p =>
    (p.status, p.word, p.aux, p.posValid, p.pos)) = some (0b00#2, 0x3F7FFF7F74, 0x8000808B, true, 38) := by decide +kernel
/-- K1. -/
theorem test_reserved_K1 : (portsAfter (step (at' .w16 0b101#3 5 6))).map (fun p => (p.status, p.word, p.flag)) =
    some (0b11#2, 0, false) := by decide
/-- 95, parity groups of D = 8. -/
theorem test_parityGroups_w8 : (List.range 4).map (parityGroup .w8) =
    [[1, 3, 5, 7, 9, 11], [2, 3, 6, 7, 10, 11], [4, 5, 6, 7, 12], [8, 9, 10, 11, 12]] := by decide
/-- Reset, D = 8: the configuration outputs of 95, section 7. -/
theorem test_reset_outputs : State.reset.configOutputs =
    { cfgDataBits := 8, cfgParityBits := 4, cfgTotalBits := 13 } := by decide
/-- The response at reset is the one a step gives for the command on the inputs (R151). -/
theorem test_reset_response : replyOf (step State.reset) = State.reset.response := by decide +kernel

/-- A command presented after another shows nothing of the earlier one's response (10_state.md R34). -/
theorem test_present_ends_the_response :
    (((State.resetOf .w8).raise .outOfRange).present { op := 0b011#3, a := 0, b := 7 }).ports = none := by decide

/-! ### Notation of host programs (R71) -/

/-- P1, step 3. -/
theorem test_parse_inject : parseLine "E1 <- INJECT E, 3".toList =
    some { bind := some ['E', '1'], cmd := .inject (.name ['E']) (.lit 3) } := by decide +kernel
theorem test_parse_hex : parseLine "ENCODE 0x1A".toList = some { bind := none, cmd := .encode (.lit 0x1A) } := by
  decide +kernel
/-- A literal of 65 bits is no operand. -/
theorem test_parse_wide : parseLine "DECODE 18446744073709551616".toList = none := by decide +kernel
/-- Mnemonics are upper case. -/
theorem test_parse_lower : parseLine "positions".toList = none := by decide +kernel

/-! ### Witnesses of the statements' hypotheses -/

theorem witness_DecodeOfEncodeIsTheCommand :
    (Instr.encode (2 ^ 64 - 1)).wf = true ∧ (Instr.decode (2 ^ 64 - 1)).wf = true ∧
    (Instr.inject (2 ^ 64 - 1) (2 ^ 64 - 1)).wf = true ∧ (Instr.isParity (2 ^ 64 - 1)).wf = true ∧
    Instr.positions.wf = true := by decide

theorem witness_EncodeOfDecodeKeepsWhatIsRead :
    decode { op := 0b000#3, a := -1#64, b := 1#64 } = .ok (.encode (2 ^ 64 - 1)) ∧
    decode { op := 0b001#3, a := -1#64, b := 1#64 } = .ok (.decode (2 ^ 64 - 1)) ∧
    decode { op := 0b010#3, a := -1#64, b := -1#64 } = .ok (.inject (2 ^ 64 - 1) (2 ^ 64 - 1)) ∧
    decode { op := 0b011#3, a := 1#64, b := -1#64 } = .ok (.isParity (2 ^ 64 - 1)) := ⟨rfl, rfl, rfl, rfl⟩

theorem witness_EveryOpSelectsOneOutcome : ∀ op : OpSelect, (at' .w8 op (-1) (-1)).port.op = op := fun _ => rfl

theorem witness_IllegalCommandIffReservedOp :
    5 ≤ (at' .w8 0b101#3 0 0).port.op.toNat ∧ 5 ≤ (at' .w8 0b111#3 0 0).port.op.toNat ∧
    ¬ 5 ≤ (at' .w8 0b100#3 0 0).port.op.toNat ∧
    replyOf (step (at' .w8 0b110#3 0 0)) = some (.err .illegalCommand) := by decide

theorem witness_StepRunsTheCommandOnThePort :
    decode (at' .w8 0b010#3 0xA27 12).port = .ok (.inject 0xA27 12) := by rfl

theorem witness_UnreadOperandsAreIgnored :
    (∃ t, step (at' .w8 0b000#3 0xA5 1) = .next t) ∧ (∃ t, step (at' .w8 0b001#3 0x2A27 1) = .next t) ∧
    (∃ t, step (at' .w8 0b011#3 1 12) = .next t) ∧ (∃ t, step (at' .w8 0b100#3 1 1) = .next t) ∧
    (∃ t, step (at' .w8 0b101#3 1 1) = .next t) ∧ 4 ≤ (at' .w8 0b100#3 1 1).port.op.toNat :=
  ⟨⟨_, rfl⟩, ⟨_, rfl⟩, ⟨_, rfl⟩, ⟨_, rfl⟩, ⟨_, rfl⟩, by decide⟩

theorem witness_ParityBitsIsTheLeastThatFits :
    Width.w8.dataBits + 4 + 1 ≤ 2 ^ 4 ∧ ¬ Width.w8.dataBits + 3 + 1 ≤ 2 ^ 3 := by decide

theorem witness_PositionCountsAddUp : 11 < Width.w8.totalBits - 1 ∧ 37 < Width.w32.totalBits - 1 := by decide

theorem witness_PositionsPartitionTheCodeword :
    12 < (State.resetOf .w8).width.totalBits ∧ 38 < (State.resetOf .w32).width.totalBits := by decide

theorem witness_PositionsListsTheClasses : 7 < (State.resetOf .w8).width.dataBits := by decide

theorem witness_InvalidInputIffOversizedData :
    2 ^ (State.resetOf .w8).width.dataBits ≤ 0x100 ∧
    replyOf (exec (.encode 0x100) (State.resetOf .w8)) = some (.err .invalidInput) := by decide

/-- The largest data word, for each statement about ENCODE below the limit. -/
theorem witness_encode_data :
    0xFF < 2 ^ (State.resetOf .w8).width.dataBits ∧ 0xFFFFFFFF < 2 ^ (State.resetOf .w32).width.dataBits := by decide

theorem witness_EncodeScattersTheData :
    0xFF < 2 ^ (State.resetOf .w8).width.dataBits ∧ 7 < (State.resetOf .w8).width.dataBits ∧
    (∀ k, k < (State.resetOf .w8).width.dataBits → 7 ≠ dataPos (State.resetOf .w8).width k) ∧
    (∀ k, k < (State.resetOf .w8).width.dataBits → 12 ≠ dataPos (State.resetOf .w8).width k) := by decide

theorem witness_EncodeSetsEachParityBit :
    0xFF < 2 ^ (State.resetOf .w8).width.dataBits ∧ 3 < (State.resetOf .w8).width.parityBits := by decide

theorem witness_EncodeSetsTheGlobalParity : 0xFFFF < 2 ^ (State.resetOf .w16).width.dataBits := by decide

theorem witness_EncodeGivesEvenParity :
    0xFF < 2 ^ (State.resetOf .w8).width.dataBits ∧ 3 < (State.resetOf .w8).width.parityBits ∧ (0 : Nat) ≠ 3 := by decide

theorem witness_EncodeFitsTheCodeword : 0xFFFFFFFF < 2 ^ (State.resetOf .w32).width.dataBits := by decide

theorem witness_EncodeIsInjectiveAndRoundTrips :
    0xA5 < 2 ^ (State.resetOf .w8).width.dataBits ∧
    (at' .w8 0b111#3 1 1).width = (State.resetOf .w8).width ∧
    replyOf (exec (.encode 0xA5) (State.resetOf .w8)) = some (.ok (.codeword 0xA27)) := by decide +kernel

theorem witness_SyndromeBitsAreGroupMismatches : 3 < Width.w8.parityBits := by decide

theorem witness_SyndromeIsTheXorOfSetPositions :
    0xA5 < 2 ^ (State.resetOf .w8).width.dataBits ∧ [1, 3, 7, 12].Nodup ∧
    ∀ i ∈ [1, 3, 7, 12], i < (State.resetOf .w8).width.totalBits := by decide

/-- V1, V2, V7 and V6: one word for each of the four ways. -/
theorem witness_DecodeClassifiesFourWays :
    0x1A27 < 2 ^ (State.resetOf .w8).width.totalBits ∧
    (syndrome .w8 0xA27 = 0 ∧ overallParity .w8 0xA27 = false) ∧
    (syndrome .w8 0xA23 ≠ 0 ∧ overallParity .w8 0xA23 = true) ∧
    (syndrome .w8 0xA33 ≠ 0 ∧ overallParity .w8 0xA33 = false) ∧
    (syndrome .w8 0x1A27 = 0 ∧ overallParity .w8 0x1A27 = true) := by decide +kernel

theorem witness_DecodeExtractsTheDataBits :
    0x1FFF < 2 ^ (State.resetOf .w8).width.totalBits ∧ 7 < (State.resetOf .w8).width.dataBits := by decide

theorem witness_WideDecodeGivesATypedResult :
    2 ^ (State.resetOf .w8).width.totalBits ≤ 0x2000 ∧ ¬ 2 ^ (State.resetOf .w8).width.totalBits ≤ 0x1FFF := by decide

/-- V13. -/
theorem witness_SyndromeBeyondTheCodeword :
    0xAAD < 2 ^ (State.resetOf .w8).width.totalBits ∧ overallParity (State.resetOf .w8).width 0xAAD = true ∧
    (State.resetOf .w8).width.totalBits < syndrome (State.resetOf .w8).width 0xAAD := by decide +kernel

theorem witness_TripleFlipIsMiscorrected : 0xA5 < 2 ^ (State.resetOf .w8).width.dataBits := by decide

theorem witness_SingleFlipIsCorrected :
    0xA5 < 2 ^ (State.resetOf .w8).width.dataBits ∧ 12 < (State.resetOf .w8).width.totalBits := by decide

theorem witness_DoubleFlipIsDetected :
    0xA5 < 2 ^ (State.resetOf .w8).width.dataBits ∧ 0 < (State.resetOf .w8).width.totalBits ∧
    12 < (State.resetOf .w8).width.totalBits ∧ (0 : Nat) ≠ 12 := by decide

theorem witness_TrustedDataIsTheSentData :
    0xA5 < 2 ^ (State.resetOf .w8).width.dataBits ∧ [0, 12].Nodup ∧ [0, 12].length ≤ 2 ∧
    ∀ i ∈ [0, 12], i < (State.resetOf .w8).width.totalBits := by decide

theorem witness_OutOfRangeIffPositionBeyond :
    (State.resetOf .w8).width.totalBits ≤ 13 ∧
    replyOf (exec (.inject 0xA27 13) (State.resetOf .w8)) = some (.err .outOfRange) ∧
    replyOf (exec (.isParity 13) (State.resetOf .w8)) = some (.err .outOfRange) := by decide

theorem witness_InjectFlipsExactlyOneBit :
    12 < (State.resetOf .w8).width.totalBits ∧ 2 ^ 64 - 1 < 2 ^ 64 ∧ (0 : Nat) ≠ 12 := by decide

theorem witness_IsParityAnswersTheParityIndices :
    7 < (State.resetOf .w8).width.totalBits ∧ 12 = (State.resetOf .w8).width.totalBits - 1 := by decide

theorem witness_QueriesAgreeWithEncodeAndDecode :
    12 < (State.resetOf .w8).width.totalBits ∧ 0xA5 < 2 ^ (State.resetOf .w8).width.dataBits ∧
    0x1FFF < 2 ^ (State.resetOf .w8).width.totalBits ∧
    (positionClasses .w8).dataPositions[7]? = some 11 := by decide

theorem witness_PayloadOfEachResult :
    ((State.resetOf .w8).ports.isSome = true ∧ (State.resetOf .w8).response = some (.ok (.codeword 0)) ∧
      2 ^ 64 - 1 < 2 ^ 64) ∧
    ((diagnose .w32 0x7755B7AE77).errorPosition = some 62 ∧ (62 : Nat) < 256 ∧
      (diagnose .w8 0xA27).errorPosition = none ∧ (diagnose .w8 0xA33).errorKind = .double) ∧
    replyOf (exec (.decode 0xA27) (State.resetOf .w8)) = some (.ok (.decoded (diagnose .w8 0xA27))) ∧
    replyOf (exec (.isParity 7) (State.resetOf .w8)) = some (.ok (.parity true)) ∧
    (replyOf (exec .positions (State.resetOf .w32)) = some (.ok (.classes (positionClasses .w32))) ∧
      maskOf (positionClasses .w32).dataPositions < 2 ^ 64 ∧
      maskOf (positionClasses .w32).parityPositions < 2 ^ 64 ∧
      (positionClasses .w32).globalParityPosition < 256) := by decide +kernel

/-- A result of each kind is of the type of 10_state.md R31 and R32, at the bounds of its fields. -/
theorem witness_PayloadOfEachResult_typed :
    ({ errorDetected := true, errorKind := .single, errorPosition := some 255,
       correctedCodeword := 2 ^ 64 - 1, originalData := 0xFF } : DecodingResult).Typed .w8 ∧
    ({ errorDetected := false, errorKind := .none, errorPosition := none,
       correctedCodeword := 0, originalData := 0 } : DecodingResult).Typed .w8 := by
  unfold DecodingResult.Typed
  decide

theorem witness_ErrorsDriveAZeroPayload :
    (((State.resetOf .w8).raise .invalidInput).ports.map (·.status)) = some 0b01#2 ∧
    (((State.resetOf .w8).raise .outOfRange).ports.map (·.status)) = some 0b10#2 ∧
    (((State.resetOf .w8).raise .illegalCommand).ports.map (·.status)) = some 0b11#2 ∧
    ((State.resetOf .w8).ports.map (·.status)) = some 0b00#2 := by decide

theorem witness_KindCodeIsNeverEleven :
    (portsAfter (step (at' .w8 0b001#3 0xA33 0))).map (·.kind) = some 0b10#2 := by decide +kernel

theorem witness_ResponsesFitTheirBuses :
    replyOf (step (at' .w32 0b000#3 0xDEADBEEF 0)) = some (.ok (.codeword 0x77D5B76E77)) ∧
    (at' .w8 0b001#3 0x1FFF 0).port.drawsResult .w8 = false ∧
    replyOf (step (at' .w8 0b001#3 0x1FFF 0)) = some (.ok (.decoded (diagnose .w8 0x1FFF))) ∧
    replyOf (step (at' .w8 0b100#3 0 0)) = some (.ok (.classes (positionClasses .w8))) := by decide +kernel

theorem witness_ConfigurationOutputsAreConstant : ∃ t, step (at' .w8 0b001#3 0x2A27 0) = .next t := ⟨_, rfl⟩

theorem witness_SettledSampleIsTheResponse :
    (∃ t, step ((State.resetOf .w8).present { op := 0b010#3, a := 0xA27, b := 13 }) = .next t) ∧
    Config.tSettle ≤ Config.tSettle := ⟨⟨_, rfl⟩, Nat.le_refl _⟩

theorem witness_EveryStepSettlesTheResponse :
    (∃ t, step (at' .w8 0b000#3 0x100 0) = .next t) ∧ (∃ t, step (at' .w8 0b001#3 0x2A27 0) = .next t) ∧
    (∃ t, step (at' .w8 0b111#3 0 0) = .next t) := ⟨⟨_, rfl⟩, ⟨_, rfl⟩, ⟨_, rfl⟩⟩

theorem witness_HostActionsKeepTheInvariant : (State.resetOf .w8).Settled ∧ (State.resetOf .w8).Inv := by
  have h : Answers (State.resetOf .w8).width (State.resetOf .w8).port (.ok (.codeword 0)) := by
    show if (0 : Nat) < 2 ^ 8 then ∃ v, Reply.ok (.codeword 0) = .ok (.codeword v) ∧ IsCodewordOf .w8 0 v
      else Reply.ok (.codeword 0) = .err .invalidInput
    rw [if_pos (by decide)]
    exact ⟨0, rfl, by decide, by decide, by decide, by decide⟩
  refine ⟨⟨_, rfl, h⟩, fun o e => ?_⟩
  cases e
  exact h

/-- Two states that differ in command and response, of one width, and a command that draws nothing. -/
theorem witness_OnlyTheConfigurationIsCarriedOver :
    (State.resetOf .w8).width = ((at' .w8 0b111#3 1 2).raise .illegalCommand).width ∧
    (State.resetOf .w8).draws = ((at' .w8 0b111#3 1 2).raise .illegalCommand).draws ∧
    ({ op := 0b001#3, a := 0x1FFF, b := 0 } : Command).drawsResult (State.resetOf .w8).width = false ∧
    (step ((State.resetOf .w8).present { op := 0b001#3, a := 0x1FFF, b := 0 })) matches .next _ := by decide

theorem witness_CommandsChangeOnlyTheResponse :
    (∃ t, step (at' .w8 0b010#3 0xA27 12) = .next t) ∧
    (at' .w8 0b001#3 0x2000 0).port.drawsResult .w8 = true := ⟨⟨_, rfl⟩, by decide⟩

theorem witness_OutcomeDependsOnTheCommandAlone :
    (at' .w8 0b011#3 0 7).width = ((at' .w8 0b011#3 0 7).raise .outOfRange).width ∧
    (at' .w8 0b011#3 0 7).port = ((at' .w8 0b011#3 0 7).raise .outOfRange).port ∧
    (at' .w8 0b011#3 0 7).port.drawsResult .w8 = false ∧
    replyOf (step (at' .w8 0b011#3 0 7)) = replyOf (step ((at' .w8 0b011#3 0 7).raise .outOfRange)) := by decide

theorem witness_OutcomesAreIndependentOfOrder :
    ∀ c ∈ [(at' .w8 0b001#3 0x1FFF 0).port, (at' .w8 0b111#3 0 0).port], c.drawsResult .w8 = false := by decide

theorem witness_ErrorsLeaveNoTrace :
    replyOf (step (at' .w8 0b000#3 0x100 0)) = some (.err .invalidInput) ∧
    replyOf (step (at' .w8 0b010#3 0 13)) = some (.err .outOfRange) ∧
    replyOf (step (at' .w8 0b110#3 0 0)) = some (.err .illegalCommand) := by decide

theorem witness_HostProgramsKeepTheConfiguration :
    (runHostProgram [{ bind := some ['F'], cmd := .isParity (.lit 7) }] [] (State.resetOf .w8)).map (fun r => r.1) =
      some [(['F'], .ok (.parity true))] := by decide +kernel

/-! ### The machine behind the interface -/

theorem test_step_after_reset_runs_the_table_word :
    replyOf (step (State.reset.withFetchWord 8 0b011)) = some (.ok (.parity true)) := by decide

end Sys2Proof.Tests
end

section
/-! PROOFS. The scope of the block (00_scope.md): its configurations, and a step as one command. -/

namespace Sys2Proof

/-! ### The configuration (R8 to R10) -/

/-- The search for `r` ends: `D` itself satisfies R8's inequality in every build. -/
theorem Width.dataBits_fits (w : Width) : w.dataBits + w.dataBits + 1 ≤ 2 ^ w.dataBits := by
  cases w <;> decide

/-- The upward search of R8 finds `r`; its default value is never used. -/
theorem Width.find_parityBits (w : Width) :
    ((List.range (w.dataBits + 1)).find? fun r => decide (w.dataBits + r + 1 ≤ 2 ^ r)) =
      some w.parityBits := by
  obtain ⟨r, hr⟩ : ∃ r, ((List.range (w.dataBits + 1)).find? fun r =>
      decide (w.dataBits + r + 1 ≤ 2 ^ r)) = some r :=
    Option.isSome_iff_exists.mp <| List.find?_isSome.mpr
      ⟨w.dataBits, List.mem_range.mpr (Nat.lt_succ_self _), decide_eq_true w.dataBits_fits⟩
  rw [Width.parityBits, hr, Option.getD_some]

/-- What the search says of `r`: it satisfies the inequality, and nothing below it does. -/
theorem Width.parityBits_spec (w : Width) :
    w.dataBits + w.parityBits + 1 ≤ 2 ^ w.parityBits ∧
      ∀ r < w.parityBits, ¬ w.dataBits + r + 1 ≤ 2 ^ r := by
  obtain ⟨hfits, -, hleast⟩ := List.find?_range_eq_some.mp w.find_parityBits
  exact ⟨of_decide_eq_true hfits, fun r hr => by simpa using hleast r hr⟩

/-- Settles O9: what the upward search finds fits, and every natural below it was tried and does not. -/
theorem parityBitsIsTheLeastThatFits : Obligations.ParityBitsIsTheLeastThatFits := by
  intro w
  obtain ⟨hfits, hleast⟩ := w.parityBits_spec
  exact ⟨hfits, fun r hr => Nat.le_of_not_lt fun hlt => hleast r hlt hr⟩

/-- Settles O10: `N` is R9's sum, and R10's table is the configuration of each build. -/
theorem legalConfigurations : Obligations.LegalConfigurations := by
  refine ⟨fun _ => rfl, fun w => ?_⟩
  cases w with
  | w8 => simp [Width.dataBits, Width.parityBits_w8, Width.totalBits_w8]
  | w16 => simp [Width.dataBits, Width.parityBits_w16, Width.totalBits_w16]
  | w32 => simp [Width.dataBits, Width.parityBits_w32, Width.totalBits_w32]

/-! ### A step is one command (R17) -/

/-- Settles O6: the step fetches what is on the port, and runs what that decodes to. -/
theorem stepRunsTheCommandOnThePort : Obligations.StepRunsTheCommandOnThePort :=
  fun _ _ hdecode => Machine.step_of_decode hdecode

end Sys2Proof
end

section
/-! PROOFS. The state (10_state.md): the position classes, POSITIONS' tables, and what the block carries from
one command to the next. -/

namespace Sys2Proof.Machine

/-! ### The position classes (R24 to R28) -/

/-- R25's bit test says what it is for: `p` is a power of two. -/
theorem isPow2_iff {p : Nat} : isPow2 p = true ↔ ∃ i, p = 2 ^ i := by
  by_cases hp : p = 0
  · subst hp
    simp [isPow2, (Nat.two_pow_pos _).ne]
  · simp [isPow2, Nat.one_le_iff_ne_zero, hp, Nat.and_sub_one_eq_zero_iff_isPowerOfTwo hp, Nat.isPowerOfTwo]

/-- The powers of two below `N` are those with an exponent below `r`: `2^r` is too large because `r` fits R8's
inequality, and a smaller power fits below `N` because a smaller exponent does not. -/
theorem two_pow_lt_totalBits_iff (w : Width) (k : Nat) : 2 ^ k < w.totalBits ↔ k < w.parityBits := by
  obtain ⟨hfits, hleast⟩ := w.parityBits_spec
  unfold Width.totalBits
  constructor
  · intro h
    exact (Nat.pow_lt_pow_iff_right Nat.one_lt_two).mp (h.trans_le hfits)
  · intro h
    have hbelow := hleast k h
    omega

/-- Below the global index, the positions that pass the test are the listed parity positions (R25, R27). -/
theorem isPow2_succ_iff_mem_parityPositions {w : Width} {i : Nat} (hi : i < globalIndex w) :
    isPow2 (i + 1) = true ↔ i ∈ parityPositions w := by
  simp only [isPow2_iff, parityPositions, parityIndex, List.mem_map, List.mem_range]
  constructor
  · rintro ⟨k, hk⟩
    refine ⟨k, (two_pow_lt_totalBits_iff w k).mp ?_, by omega⟩
    unfold globalIndex at hi
    omega
  · rintro ⟨k, -, rfl⟩
    exact ⟨k, Nat.sub_add_cancel Nat.one_le_two_pow⟩

/-- The indices below the global one that pass the test number `r`: the other `D` are data positions (R27). -/
theorem length_filter_isPow2 (w : Width) :
    ((List.range (globalIndex w)).filter fun i => isPow2 (i + 1)).length = w.parityBits := by
  have hsplit := List.length_eq_length_filter_add (l := List.range (globalIndex w)) fun i => isPow2 (i + 1)
  have hdata := length_dataPositions w
  rw [dataPositions] at hdata
  rw [List.length_range, hdata, globalIndex, Width.totalBits] at hsplit
  unfold globalIndex Width.totalBits
  omega

/-- The data positions ascend (R28, 43_classify.md R123). -/
theorem dataPositions_pairwise_lt (w : Width) : (dataPositions w).Pairwise (· < ·) :=
  List.pairwise_lt_range.filter _

/-- Settles O11: the bit test of R25 is exact. -/
theorem powerOfTwoTestIsExact : Obligations.PowerOfTwoTestIsExact := fun _ => isPow2_iff

/-- Settles O12: the test splits the `N - 1` indices below the global one into `r` and `D`. -/
theorem positionCountsAddUp : Obligations.PositionCountsAddUp := by
  intro w
  refine ⟨length_filter_isPow2 w, length_dataPositions w, ?_,
    fun _ hi => isPow2_succ_iff_mem_parityPositions hi⟩
  unfold Width.totalBits
  omega

/-! ### POSITIONS (R28) -/

/-- POSITIONS lists every data position: `dataPos(0) .. dataPos(D-1)` is the whole list (R28). -/
theorem positionClasses_dataPositions (w : Width) : (positionClasses w).dataPositions = dataPositions w := by
  refine List.ext_getElem (by simp [positionClasses, length_dataPositions]) fun k hk hk' => ?_
  rw [length_dataPositions] at hk'
  obtain ⟨_, hget⟩ := List.getElem?_eq_some_iff.mp (getElem?_dataPositions w k hk')
  simp [positionClasses, hget]

theorem positionClasses_w8 : positionClasses .w8 =
    { dataPositions := [2, 4, 5, 6, 8, 9, 10, 11], parityPositions := [0, 1, 3, 7]
      globalParityPosition := 12 } := by decide

theorem positionClasses_w16 : positionClasses .w16 =
    { dataPositions := [2, 4, 5, 6, 8, 9, 10, 11, 12, 13, 14, 16, 17, 18, 19, 20]
      parityPositions := [0, 1, 3, 7, 15], globalParityPosition := 21 } := by decide

theorem positionClasses_w32 : positionClasses .w32 =
    { dataPositions := [2, 4, 5, 6, 8, 9, 10, 11, 12, 13, 14, 16, 17, 18, 19, 20, 21, 22, 23, 24, 25, 26, 27,
        28, 29, 30, 32, 33, 34, 35, 36, 37]
      parityPositions := [0, 1, 3, 7, 15, 31], globalParityPosition := 38 } := by decide

/-- Settles O14: the tables of R28, and the buses that carry them. -/
theorem positionsListsTheClasses : Obligations.PositionsListsTheClasses := by
  intro s
  refine ⟨positionClasses s.width, s.succeed (.classes (positionClasses s.width)), _, rfl,
    State.succeed_eq s _, State.succeed_ports s _, ?_, ?_, ?_, ?_⟩
  · intro k hk
    rw [positionClasses_dataPositions, getElem?_dataPositions _ k hk]
  · rw [positionClasses_dataPositions, length_dataPositions]
  · rw [positionClasses_dataPositions]
    exact dataPositions_pairwise_lt s.width
  · simp only [portsOf_buses]
    generalize s.width = w
    cases w with
    | w8 => exact ⟨positionClasses_w8, by decide, by decide, rfl, by decide⟩
    | w16 => exact ⟨positionClasses_w16, by decide, by decide, rfl, by decide⟩
    | w32 => exact ⟨positionClasses_w32, by decide, by decide, rfl, by decide⟩

/-! ### Nothing but the configuration is carried (R34, R38) -/

/-- A command whose result is not drawn completes with an outcome that the width alone decides (R38). -/
theorem exec_eq_complete {w : Width} {i : Instr} (hnd : ∀ c, i = .decode c → c < 2 ^ w.totalBits) :
    ∃ o, ∀ s : State, s.width = w → exec i s = .next (s.complete o) := by
  cases i with
  | encode d =>
    by_cases h : 2 ^ w.dataBits ≤ d
    · exact ⟨.err .invalidInput, fun s hs => if_pos (hs ▸ h)⟩
    · exact ⟨.ok (.codeword (codewordOf w d)), fun s hs => hs ▸ if_neg (hs ▸ h)⟩
  | decode c =>
    exact ⟨.ok (.decoded (diagnose w c)), fun s hs => hs ▸ if_neg (hs ▸ Nat.not_le_of_lt (hnd c rfl))⟩
  | inject c p =>
    by_cases h : w.totalBits ≤ p
    · exact ⟨.err .outOfRange, fun s hs => if_pos (hs ▸ h)⟩
    · exact ⟨.ok (.codeword (flipBit c p)), fun s hs => if_neg (hs ▸ h)⟩
  | isParity p =>
    by_cases h : w.totalBits ≤ p
    · exact ⟨.err .outOfRange, fun s hs => if_pos (hs ▸ h)⟩
    · exact ⟨.ok (.parity (isParityIndex w p)), fun s hs => hs ▸ if_neg (hs ▸ h)⟩
  | positions => exact ⟨.ok (.classes (positionClasses w)), fun s hs => hs ▸ rfl⟩

/-- A command that draws nothing decodes to no DECODE of a word at or above `2^N` (41_decode.md R104). -/
theorem lt_of_decode_of_not_draws {w : Width} {c : Command} (hnd : c.drawsResult w = false) {v : Nat}
    (h : decode c = .ok (.decode v)) : v < 2 ^ w.totalBits := by
  rcases decode_cases c with ⟨-, e⟩ | ⟨hop, e⟩ | ⟨-, e⟩ | ⟨-, e⟩ | ⟨-, e⟩ | ⟨-, e⟩ <;>
    cases e.symm.trans h
  simpa [Command.drawsResult, hop] using hnd

/-- The step on a command that draws nothing completes it with an outcome that the width and the command alone
decide (R34, R38, 20_memory.md R48). -/
theorem step_eq_complete {w : Width} {c : Command} (hnd : c.drawsResult w = false) :
    ∃ o, ∀ s : State, s.width = w → s.port = c → step s = .next (s.complete o) := by
  cases hdec : decode c with
  | ok i =>
    obtain ⟨o, ho⟩ := exec_eq_complete (w := w) (i := i)
      fun v hv => lt_of_decode_of_not_draws hnd (hdec.trans (congrArg _ hv))
    exact ⟨o, fun s hw hp => (step_of_decode (by rwa [State.fetch, hp])).trans (ho s hw)⟩
  | error e => exact ⟨.err .illegalCommand, fun s _ hp => step_of_reserved (by rwa [State.fetch, hp])⟩

/-- Settles O48: presenting ends the response, and what is answered then is decided by the width and the
command. -/
theorem onlyTheConfigurationIsCarriedOver : Obligations.OnlyTheConfigurationIsCarriedOver := by
  intro s s' c
  refine ⟨rfl, rfl, fun hw hd => ?_, fun hw hnd t t' ht ht' => ?_⟩
  · simp only [State.present_eq, hw, hd]
  · obtain ⟨o, ho⟩ := step_eq_complete hnd
    cases (ho (s.present c) rfl rfl).symm.trans ht
    cases (ho (s'.present c) hw.symm rfl).symm.trans ht'
    exact ⟨rfl, by simp [hw]⟩

/-! ### The invariant under what a host does (R34, R38) -/

/-- Sampling changes nothing but the model's counter of draws (70_reset_and_hazards.md R155, log 11). -/
theorem sampleAfter_snd (held : Nat) (s : State) :
    (sampleAfter held s).2 = s ∨ (sampleAfter held s).2 = { s with draws := s.draws + 1 } := by
  unfold sampleAfter
  split
  · split
    · exact .inl rfl
    · exact .inr rfl
  · exact .inr rfl

/-- A settled state has one response, and it is allowed. -/
theorem State.Settled.inv {s : State} (h : s.Settled) : s.Inv := by
  obtain ⟨o, ho, hans⟩ := h
  intro o' ho'
  cases ho.symm.trans ho'
  exact hans

/-- After presenting there is no response to be wrong (R34). -/
theorem State.present_inv (s : State) (c : Command) : (s.present c).Inv := by
  intro o ho
  simp at ho

/-- The invariant does not read the counter of draws, which is all that sampling can change. -/
theorem State.Inv.after_sampleAfter {s : State} (h : s.Inv) (held : Nat) : (sampleAfter held s).2.Inv := by
  rcases sampleAfter_snd held s with e | e <;> rw [e] <;> exact h

/-- Settles O47: presenting and sampling are all that a host does at the port, and each keeps the invariant. -/
theorem hostActionsKeepTheInvariant : Obligations.HostActionsKeepTheInvariant :=
  fun s => ⟨State.Settled.inv, s.present_inv, fun held h => h.after_sampleAfter held⟩

/-! ### Reset (R37) -/

@[simp] theorem State.resetOf_configOutputs (w : Width) :
    (State.resetOf w).configOutputs = Width.outputs w := rfl

/-- Settles O50: each build's constants, from its configuration. -/
theorem resetHoldsTheConfiguration : Obligations.ResetHoldsTheConfiguration := by
  refine ⟨?_, ?_, ?_⟩
  · simp [Width.outputs, Width.dataBits, Width.parityBits_w8, Width.totalBits_w8]
  · simp [Width.outputs, Width.dataBits, Width.parityBits_w16, Width.totalBits_w16]
  · simp [Width.outputs, Width.dataBits, Width.parityBits_w32, Width.totalBits_w32]

end Sys2Proof.Machine
end

section
/-! PROOFS. The block between commands (20_memory.md): what a command may change, and that neither what came
before it nor the order of the commands decides its outcome. -/

namespace Sys2Proof.Machine

/-! ### The frame of a command (R48) -/

/-- A command that draws decodes to a DECODE of its operand A, a word at or above `2^N` (41_decode.md R104). -/
theorem decode_of_draws {w : Width} {c : Command} (h : c.drawsResult w = true) :
    decode c = .ok (.decode c.operandA) ∧ 2 ^ w.totalBits ≤ c.operandA := by
  obtain ⟨hop, hle⟩ : c.op = 0b001#3 ∧ 2 ^ w.totalBits ≤ c.operandA := by
    simpa [Command.drawsResult] using h
  exact ⟨by simp [decode, hop], hle⟩

/-- The step on a command that draws answers with the drawn result and counts the draw (41_decode.md R104). -/
theorem step_of_draws {s : State} (h : s.port.drawsResult s.width = true) : step s =
    .next { s.succeed (.decoded (drawnResult s.width s.draws)) with draws := s.draws + 1 } := by
  obtain ⟨hdec, hle⟩ := decode_of_draws h
  exact (step_of_decode hdec).trans (if_pos hle)

/-- Settles O52: a command that draws counts its draw, and any other only completes. -/
theorem commandsChangeOnlyTheResponse : Obligations.CommandsChangeOnlyTheResponse := by
  intro s t ht
  cases hd : s.port.drawsResult s.width with
  | true =>
    cases (step_of_draws hd).symm.trans ht
    rfl
  | false =>
    obtain ⟨o, ho⟩ := step_eq_complete hd
    cases (ho s rfl rfl).symm.trans ht
    rfl

/-! ### The outcome of a command (R48) -/

/-- Settles O53: both states complete with the outcome that their width and command decide, and so does the
completed state again, which has the same two. -/
theorem outcomeDependsOnTheCommandAlone : Obligations.OutcomeDependsOnTheCommandAlone := by
  intro s s' t t' hw hp hnd ht ht'
  obtain ⟨o, ho⟩ := step_eq_complete hnd
  cases (ho s rfl rfl).symm.trans ht
  cases (ho s' hw.symm hp.symm).symm.trans ht'
  exact ⟨rfl, ho (s.complete o) rfl rfl⟩

/-! ### Serving commands in order (R49) -/

/-- The next command ends what the one before it left: the block is as if that one had never been presented
(10_state.md R34, R38). -/
@[simp] theorem State.present_complete_present (s : State) (c d : Command) (o : Reply) :
    ((s.present c).complete o).present d = s.present d := rfl

/-- Serving a first command that completes puts its outcome before those of the others. -/
theorem serve_cons {c : Command} {cs : List Command} {s u : State} {o : Reply} {os : List Reply}
    (hstep : step (s.present c) = .next ((s.present c).complete o))
    (hserve : serve cs ((s.present c).complete o) = .next (os, u)) :
    serve (c :: cs) s = .next (o :: os, u) := by
  simp [serve, hstep, hserve]

/-- Settles O54, by induction on the commands: the first gets its outcome alone, and the others are served as
if it had never been presented. -/
theorem outcomesAreIndependentOfOrder : Obligations.OutcomesAreIndependentOfOrder := by
  intro cs
  induction cs with
  | nil => exact fun s _ => ⟨[], s, rfl, rfl, rfl, fun k c u hk _ => by simp at hk⟩
  | cons c cs ih =>
    intro s hnd
    obtain ⟨hc, hcs⟩ := List.forall_mem_cons.mp hnd
    obtain ⟨o, ho⟩ := step_eq_complete hc
    have hstep := ho (s.present c) rfl rfl
    obtain ⟨os, t, hserve, hw, hlen, halone⟩ := ih ((s.present c).complete o) hcs
    refine ⟨o :: os, t, serve_cons hstep hserve, hw, congrArg Nat.succ hlen, fun k d u hk hu => ?_⟩
    cases k with
    | zero =>
      cases hk
      cases hstep.symm.trans hu
      rfl
    | succ k => exact halone k d u hk (by rwa [State.present_complete_present])

end Sys2Proof.Machine
end

section
/-! PROOFS. The command port (30_encoding.md): the decoder and the encoder, the operands, the payload a
response drives, the values that reach its buses, and how a literal is read. -/

namespace Sys2Proof

/-! ### Operands on a bus (R60) -/

/-- A bus shows a value that fits it as it is. -/
theorem toNat_ofNat_of_lt {n v : Nat} (h : v < 2 ^ n) : (BitVec.ofNat n v).toNat = v := by
  rw [BitVec.toNat_ofNat, Nat.mod_eq_of_lt h]

theorem fitsBus_iff {n : Nat} : fitsBus n = true ↔ n < 2 ^ 64 := decide_eq_true_iff

theorem toNat_busOf {n : Nat} (h : fitsBus n = true) : (busOf n).toNat = n :=
  toNat_ofNat_of_lt (fitsBus_iff.mp h)

@[simp] theorem busOf_toNat (b : Bus) : busOf b.toNat = b := by simp [busOf]

@[simp] theorem fitsBus_operandA (c : Command) : fitsBus c.operandA = true := fitsBus_iff.mpr c.a.isLt

@[simp] theorem fitsBus_operandB (c : Command) : fitsBus c.operandB = true := fitsBus_iff.mpr c.b.isLt

@[simp] theorem busOf_operandA (c : Command) : busOf c.operandA = c.a := busOf_toNat c.a

@[simp] theorem busOf_operandB (c : Command) : busOf c.operandB = c.b := busOf_toNat c.b

/-- The bits of a natural below `k`, weighted, sum to its low `k` bits. -/
theorem sum_testBit_eq_mod (n k : Nat) :
    ((List.range k).map fun i => (n.testBit i).toNat * 2 ^ i).sum = n % 2 ^ k := by
  induction k with
  | zero => simp [Nat.mod_one]
  | succ k ih =>
    simp only [List.range_succ, List.map_append, List.map_singleton, List.sum_append, List.sum_singleton, ih]
    rw [Nat.mod_pow_succ, Nat.toNat_testBit, Nat.mul_comm]

/-- A bus read as an unsigned natural is the sum of its bits. -/
theorem toNat_eq_sum_getLsbD (b : Bus) :
    b.toNat = ((List.range 64).map fun i => (b.getLsbD i).toNat * 2 ^ i).sum :=
  ((sum_testBit_eq_mod b.toNat 64).trans (Nat.mod_eq_of_lt b.isLt)).symm

/-- Settles O8: each operand is its bus's value, and that is the sum of the bus's bits. -/
theorem operandIsTheSumOfItsBits : Obligations.OperandIsTheSumOfItsBits :=
  fun c => ⟨toNat_eq_sum_getLsbD c.a, toNat_eq_sum_getLsbD c.b⟩

/-! ### The decoder and the encoder (R53 to R60) -/

/-- Settles O1: the select picks the same row again, and each operand survives its bus because it fits. -/
theorem decodeOfEncodeIsTheCommand : Obligations.DecodeOfEncodeIsTheCommand := by
  intro i hwf
  cases i with
  | encode v | decode v => simp [encode, decode, Instr.opSelect, Command.operandA, toNat_busOf hwf]
  | inject c p =>
    obtain ⟨hc, hp⟩ : fitsBus c = true ∧ fitsBus p = true := by simpa [Instr.wf] using hwf
    simp [encode, decode, Instr.opSelect, Command.operandA, Command.operandB, toNat_busOf hc, toNat_busOf hp]
  | isParity p => simp [encode, decode, Instr.opSelect, Command.operandB, toNat_busOf hwf]
  | positions => rfl

/-- Settles O2: an operand is read from a bus, so it fits one, and driving it gives that bus back. -/
theorem encodeOfDecodeKeepsWhatIsRead : Obligations.EncodeOfDecodeKeepsWhatIsRead := by
  intro c i hdec
  rcases decode_cases c with ⟨hop, e⟩ | ⟨hop, e⟩ | ⟨hop, e⟩ | ⟨hop, e⟩ | ⟨hop, e⟩ | ⟨-, e⟩ <;>
    cases e.symm.trans hdec <;> simp [Instr.wf, encode, Instr.opSelect, hop]

/-- The command the decoder reads from the buses is one the port can present (R54). -/
theorem wf_of_decode {c : Command} {i : Instr} (h : decode c = .ok i) : i.wf = true :=
  (encodeOfDecodeKeepsWhatIsRead c i h).1

/-- Settles O5: each word is a row of the table, with nothing on the operand buses. -/
theorem tableWordsDecode : Obligations.TableWordsDecode := ⟨rfl, rfl, rfl, rfl, rfl, rfl, rfl, rfl⟩

/-- A select from `100` up reads neither operand (R57, R58). -/
theorem decode_congr_of_four_le {c d : Command} (hop : c.op = d.op) (h : 4 ≤ c.op.toNat) :
    decode c = decode d := by
  unfold decode
  rw [← hop]
  split
  case h_5 | h_6 => rfl
  all_goals omega

end Sys2Proof

namespace Sys2Proof.Machine

/-! ### The step and the buses (R59, R70) -/

/-- Settles O3: the row of the table that `op` selects, and `IllegalCommand` where it has none. -/
theorem everyOpSelectsOneOutcome : Obligations.EveryOpSelectsOneOutcome := by
  intro s
  refine ⟨fun h => ?_, fun h => ?_, fun h => ?_, fun h => ?_, fun h => ?_, fun h => ?_⟩
  iterate 5
    · exact step_of_decode (by simp [State.fetch, decode, h, Command.operandA, Command.operandB])
  · have hdec : decode s.fetch = .error (.reservedOp s.fetch.op) := by
      rcases h with h | h | h <;> simp [State.fetch, decode, h]
    exact step_of_reserved hdec

/-- The meaning of a command does not look at the port. -/
theorem exec_with_port {i : Instr} {s t : State} (h : exec i s = .next t) (c : Command) :
    exec i { s with port := c } = .next { t with port := c } := by
  by_cases hd : ∃ v, i = .decode v ∧ 2 ^ s.width.totalBits ≤ v
  · obtain ⟨v, rfl, hv⟩ := hd
    cases (if_pos hv).symm.trans h
    exact if_pos hv
  · obtain ⟨o, ho⟩ := exec_eq_complete (w := s.width) (i := i)
      fun v hv => Nat.lt_of_not_le fun hle => hd ⟨v, hv, hle⟩
    cases (ho s rfl).symm.trans h
    exact ho _ rfl

/-- Buses that the decoder reads alike are answered alike. -/
theorem step_with_port {s t : State} {c : Command} (hdec : decode c = decode s.fetch)
    (h : step s = .next t) : step { s with port := c } = .next { t with port := c } := by
  cases hi : decode s.fetch with
  | ok i =>
    rw [step_of_decode hi] at h
    exact (step_of_decode (s := { s with port := c }) (hdec.trans hi)).trans (exec_with_port h c)
  | error e =>
    cases (step_of_reserved hi).symm.trans h
    exact step_of_reserved (s := { s with port := c }) (hdec.trans hi)

/-- Settles O7: the decoder reads no bus that the select leaves out. -/
theorem unreadOperandsAreIgnored : Obligations.UnreadOperandsAreIgnored := by
  intro s t a' b' h
  refine ⟨fun hop => step_with_port ?_ h, fun hop => step_with_port ?_ h,
    fun hop => step_with_port (decode_congr_of_four_le rfl hop) h⟩
  · rcases hop with hop | hop <;> simp [State.fetch, decode, hop, Command.operandA]
  · simp [State.fetch, decode, hop, Command.operandB]

/-! ### The configuration outputs (R67) -/

/-- A payload is at most 32 bits wide (00_scope.md R7). -/
theorem dataBits_le (w : Width) : w.dataBits ≤ 32 := by cases w <;> decide

/-- `D`, `r` and `N` fit their buses: each is at most `N`. -/
theorem outputs_toNat (w : Width) :
    (Width.outputs w).cfgDataBits.toNat = w.dataBits ∧ (Width.outputs w).cfgParityBits.toNat = w.parityBits ∧
      (Width.outputs w).cfgTotalBits.toNat = w.totalBits := by
  have hN : w.totalBits ≤ 39 := w.totalBits_le
  have hsum : w.totalBits = w.dataBits + w.parityBits + 1 := rfl
  simp only [Width.outputs, BitVec.toNat_ofNat]
  omega

/-- No command changes the configuration. -/
theorem step_width {s t : State} (h : step s = .next t) : t.width = s.width := by
  rw [commandsChangeOnlyTheResponse s t h]

/-- A sample shows the constant configuration outputs, settled or not (70_reset_and_hazards.md R155). -/
theorem sampleAfter_fst_configOutputs (held : Nat) (s : State) :
    (sampleAfter held s).1.toConfigOutputs = s.configOutputs := by
  unfold sampleAfter
  split
  next p hp =>
    obtain ⟨o, -, rfl⟩ := s.ports_eq_some.mp hp
    split <;> rfl
  next => rfl

/-- Settles O44: the outputs are read off the width, which presenting, stepping and sampling keep. -/
theorem configurationOutputsAreConstant : Obligations.ConfigurationOutputsAreConstant := by
  intro s
  refine ⟨outputs_toNat s.width, fun out hout => ?_, fun c => rfl,
    fun t ht => congrArg Width.outputs (step_width ht),
    fun held => ⟨sampleAfter_fst_configOutputs held s, ?_⟩⟩
  · obtain ⟨o, -, rfl⟩ := s.ports_eq_some.mp hout
    rfl
  · rcases sampleAfter_snd held s with e | e <;> simp [e, State.configOutputs]

/-! ### The payload (R62 to R66) -/

/-- Settles O39: the buses of each form of result, field by field. -/
theorem payloadOfEachResult : Obligations.PayloadOfEachResult := by
  intro s out hout
  obtain ⟨o, ho, rfl⟩ := s.ports_eq_some.mp hout
  refine ⟨fun c hc => ?_, fun r hr htyped => ?_, fun ans hans => ?_, fun p hp => ?_⟩
  · cases ho.symm.trans hc
    exact ⟨rfl, toNat_ofNat_of_lt, rfl, rfl, rfl, rfl, rfl, rfl⟩
  · cases ho.symm.trans hr
    obtain ⟨hpos, hcorrected, hdata⟩ := htyped
    have hnone : r.errorPosition = none → (portsOf s.width (Reply.ok (.decoded r)).buses).pos = 0 :=
      fun h => by simp [portsOf, Reply.buses, Result.buses, h]
    have hvalid : (portsOf s.width (Reply.ok (.decoded r)).buses).posValid = true ↔ r.errorKind = .single :=
      beq_iff_eq
    refine ⟨rfl, toNat_ofNat_of_lt hcorrected, rfl, toNat_ofNat_of_lt (hdata.trans_le ?_), rfl, rfl, hvalid,
      fun p hp hlt => ?_, hnone, fun h => hnone ?_⟩
    · exact Nat.pow_le_pow_right Nat.two_pos (dataBits_le s.width)
    · simpa [portsOf, Reply.buses, Result.buses, hp] using hlt
    · rw [← Option.not_isSome_iff_eq_none, hpos, ← hvalid, h]
      exact Bool.false_ne_true
  · cases ho.symm.trans hans
    exact ⟨rfl, rfl, rfl, rfl, rfl, rfl, rfl, rfl⟩
  · cases ho.symm.trans hp
    exact ⟨rfl, toNat_ofNat_of_lt, toNat_ofNat_of_lt, rfl, rfl, rfl, rfl, toNat_ofNat_of_lt (n := 8)⟩

@[simp] theorem Result.buses_status (r : Result) : r.buses.status = 0b00#2 := by cases r <;> rfl

/-- Settles O40: the four statuses are distinct, and an error's payload is zero. -/
theorem errorsDriveAZeroPayload : Obligations.ErrorsDriveAZeroPayload := by
  intro s out hout
  obtain ⟨o, ho, rfl⟩ := s.ports_eq_some.mp hout
  cases o with
  | ok r => simp [ho, Reply.buses]
  | err e =>
    refine ⟨?_, ?_, ?_, ?_, fun _ => ⟨rfl, rfl, rfl, rfl, rfl, rfl, rfl, outputs_toNat s.width⟩⟩ <;>
      cases e <;> simp [ho, Reply.buses, zeroPayload, CodecError.status]

theorem kindCode_ne_eleven (k : ErrorKind) : kindCode k ≠ 0b11#2 := by cases k <;> decide

/-- Settles O41: a decoding result drives a kind's code, and every other response drives `00`. -/
theorem kindCodeIsNeverEleven : Obligations.KindCodeIsNeverEleven := by
  refine ⟨rfl, rfl, rfl, fun s out hout => ?_⟩
  obtain ⟨o, -, rfl⟩ := s.ports_eq_some.mp hout
  cases o with
  | ok r =>
    cases r with
    | decoded r => exact kindCode_ne_eleven r.errorKind
    | codeword | parity | classes => exact kindCode_ne_eleven .none
  | err e => exact kindCode_ne_eleven .none

/-! ### The masks of the position classes (R68) -/

theorem testBit_foldl_or_two_pow (is : List Nat) (m i : Nat) :
    (is.foldl (fun m i => m ||| 2 ^ i) m).testBit i = (m.testBit i || decide (i ∈ is)) := by
  induction is generalizing m with
  | nil => simp
  | cons j js ih =>
    simp [ih, Nat.testBit_or, Nat.testBit_two_pow, Bool.or_assoc, eq_comm (a := j)]

/-- A mask has the listed bits and no other. -/
@[simp] theorem testBit_maskOf (is : List Nat) (i : Nat) : (maskOf is).testBit i = decide (i ∈ is) := by
  simp [maskOf, testBit_foldl_or_two_pow]

theorem maskOf_lt {is : List Nat} {n : Nat} (h : ∀ i ∈ is, i < n) : maskOf is < 2 ^ n := by
  refine Nat.lt_pow_two_of_testBit _ fun i hi => ?_
  rw [testBit_maskOf, decide_eq_false]
  exact fun hmem => Nat.not_lt_of_le hi (h i hmem)

/-- A bus that carries a mask has the listed bits set. -/
theorem getLsbD_maskOf {is : List Nat} (h : ∀ i ∈ is, i < 64) (i : Nat) :
    (BitVec.ofNat 64 (maskOf is)).getLsbD i = decide (i ∈ is) := by
  simpa [BitVec.getLsbD_ofNat] using h i

/-- Listing the set bits of a mask upward gives an ascending list back. -/
theorem filter_getLsbD_maskOf {is : List Nat} (h : ∀ i ∈ is, i < 64) (hasc : is.Pairwise (· < ·)) :
    (List.range 64).filter (fun i => (BitVec.ofNat 64 (maskOf is)).getLsbD i) = is := by
  refine (List.pairwise_lt_range.filter _).eq_of_mem_iff hasc fun i => ?_
  simpa [getLsbD_maskOf h] using h i

/-- Every index that POSITIONS lists is below the global one, at most 38 (10_state.md R24, R61). -/
theorem lt_64_of_lt_globalIndex {w : Width} {i : Nat} (h : i < globalIndex w) : i < 64 := by
  have hN := w.totalBits_le
  unfold globalIndex at h
  omega

theorem dataPositions_lt {w : Width} : ∀ i ∈ (positionClasses w).dataPositions, i < 64 := by
  intro i hi
  rw [positionClasses_dataPositions] at hi
  exact lt_64_of_lt_globalIndex (mem_dataPositions.mp hi).1

theorem parityPositions_lt {w : Width} : ∀ i ∈ (positionClasses w).parityPositions, i < 64 := by
  intro i hi
  obtain ⟨k, hk, rfl⟩ := List.mem_map.mp hi
  exact lt_64_of_lt_globalIndex (parityIndex_lt w k (List.mem_range.mp hk))

/-- The parity positions ascend (43_classify.md R123). -/
theorem parityPositions_pairwise_lt (w : Width) : (parityPositions w).Pairwise (· < ·) := by
  refine List.pairwise_lt_range.map _ fun a b hab => ?_
  exact Nat.sub_lt_sub_right Nat.one_le_two_pow (Nat.pow_lt_pow_right Nat.one_lt_two hab)

/-- Settles O42: `word` and `aux` are masks of lists that ascend below 64. -/
theorem positionMasksGiveTheSequences : Obligations.PositionMasksGiveTheSequences := by
  intro s
  refine ⟨positionClasses s.width, s.succeed (.classes (positionClasses s.width)), _, rfl,
    State.succeed_eq s _, State.succeed_ports s _, fun i => ?_, fun i => ?_, ?_, ?_⟩
  · exact (Bool.eq_iff_iff.mp (getLsbD_maskOf dataPositions_lt i)).trans decide_eq_true_iff
  · exact (Bool.eq_iff_iff.mp (getLsbD_maskOf parityPositions_lt i)).trans decide_eq_true_iff
  · refine filter_getLsbD_maskOf dataPositions_lt ?_
    rw [positionClasses_dataPositions]
    exact dataPositions_pairwise_lt s.width
  · exact filter_getLsbD_maskOf parityPositions_lt (parityPositions_pairwise_lt s.width)

/-! ### The values that reach the buses (R61) -/

theorem flipBit_lt {c i n : Nat} (hc : c < 2 ^ n) (hi : i < n) : flipBit c i < 2 ^ n :=
  Nat.xor_lt_two_pow hc (Nat.pow_lt_pow_right Nat.one_lt_two hi)

/-- Writing bits below `n` one after another keeps a word below `2^n`. -/
theorem foldl_setBit_lt {n c : Nat} {ks : List Nat} {place : Nat → Nat} (bit : Nat → Nat → Bool)
    (hc : c < 2 ^ n) (hplace : ∀ k ∈ ks, place k < n) :
    ks.foldl (fun c k => setBit c (place k) (bit c k)) c < 2 ^ n :=
  List.foldlRecOn (motive := (· < 2 ^ n)) ks _ hc fun _ hb k hk => setBit_lt _ hb (hplace k hk)

/-- A codeword is below `2^N` (40_encode.md R86). -/
theorem codewordOf_lt (w : Width) (data : Nat) : codewordOf w data < 2 ^ w.totalBits := by
  have hglobal : globalIndex w < w.totalBits := Nat.sub_one_lt w.totalBits_pos.ne'
  have hscatter : scatter w data < 2 ^ w.totalBits :=
    foldl_setBit_lt (fun _ k => data.testBit k) (Nat.two_pow_pos _)
      fun k hk => (dataPos_lt w k (List.mem_range.mp hk)).trans hglobal
  have hparity : placeParity w (scatter w data) < 2 ^ w.totalBits :=
    foldl_setBit_lt (fun c i => xorOver (parityGroup w i) fun j => c.testBit (j - 1)) hscatter
      fun i hi => (parityIndex_lt w i (List.mem_range.mp hi)).trans hglobal
  exact setBit_lt _ hparity hglobal

/-- The syndrome has a bit for each group and no other (41_decode.md R93). -/
theorem syndrome_lt (w : Width) (c : Nat) : syndrome w c < 2 ^ w.parityBits := by
  refine List.foldlRecOn (motive := (· < 2 ^ w.parityBits)) _ _ (Nat.two_pow_pos _) fun acc hacc i hi => ?_
  split
  · exact Nat.or_lt_two_pow hacc (Nat.pow_lt_pow_right Nat.one_lt_two (List.mem_range.mp hi))
  · exact hacc

/-- Bits weighted with the first `n` powers of two sum to less than `2^n`. -/
theorem sum_bits_lt (f : Nat → Bool) (n : Nat) :
    ((List.range n).map fun k => (f k).toNat * 2 ^ k).sum < 2 ^ n := by
  induction n with
  | zero => simp
  | succ n ih =>
    have hbit : (f n).toNat * 2 ^ n ≤ 1 * 2 ^ n := Nat.mul_le_mul_right _ (f n).toNat_le
    simp only [List.range_succ, List.map_append, List.map_singleton, List.sum_append, List.sum_singleton]
    omega

theorem extractData_lt (w : Width) (c : Nat) : extractData w c < 2 ^ w.dataBits := sum_bits_lt _ _

/-- A decoding result fits the buses (R61): it is of the type of 10_state.md R31 and R32, and a position in it is
at most 62. -/
def DecodingResult.Fits (w : Width) (r : DecodingResult) : Prop :=
  r.Typed w ∧ ∀ p, r.errorPosition = some p → p ≤ 62

/-- A result with no position fits with the received word left as it is. -/
theorem resultOf_none_fits {w : Width} {c : Nat} {kind : ErrorKind} (detected : Bool) (hkind : kind ≠ .single)
    (hc : c < 2 ^ 64) : (resultOf w detected kind none c).Fits w :=
  ⟨⟨by simpa [resultOf] using hkind, hc, extractData_lt w c⟩, fun p hp => by cases hp⟩

/-- A result that locates a position within the bus fits with the bit there flipped. -/
theorem resultOf_some_fits {w : Width} {c i : Nat} (hi : i ≤ 62) (hc : c < 2 ^ 64) :
    (resultOf w true .single (some i) (flipBit c i)).Fits w :=
  ⟨⟨by simp [resultOf], flipBit_lt hc (by omega), extractData_lt w _⟩, fun p hp => by cases hp; exact hi⟩

/-- The diagnosis of a received codeword fits the buses: the position it locates is the global one, or a syndrome
of at most six bits less one (41_decode.md R95, R105). -/
theorem diagnose_fits {w : Width} {c : Nat} (hc : c < 2 ^ w.totalBits) : (diagnose w c).Fits w := by
  have hN : w.totalBits ≤ 39 := w.totalBits_le
  have hglobal : globalIndex w ≤ 62 := by unfold globalIndex; omega
  have hsyndrome : syndrome w c - 1 ≤ 62 := by
    have hr : 2 ^ w.parityBits ≤ 2 ^ 6 := Nat.pow_le_pow_right Nat.two_pos (by cases w <;> decide)
    have hlt := syndrome_lt w c
    omega
  have hbus : c < 2 ^ 64 := hc.trans_le (Nat.pow_le_pow_right Nat.two_pos (by omega))
  rcases diagnose_cases w c with ⟨-, -, e⟩ | ⟨-, -, e⟩ | ⟨-, -, e⟩ | ⟨-, -, e⟩ <;> rw [e]
  · exact resultOf_none_fits false (by decide) hbus
  · exact resultOf_some_fits hsyndrome hbus
  · exact resultOf_none_fits true (by decide) hbus
  · exact resultOf_some_fits hglobal hbus

/-- What of an outcome goes to a bus, fits it (R61). -/
def Reply.Fits (w : Width) : Reply → Prop
  | .ok (.codeword c) => c < 2 ^ 64
  | .ok (.decoded r)  => r.Fits w
  | .ok (.classes p)  =>
    maskOf p.dataPositions < 2 ^ 64 ∧ maskOf p.parityPositions < 2 ^ 64 ∧ p.globalParityPosition < 256
  | .ok (.parity _) | .err _ => True

/-- A command the port can present, a drawing DECODE apart, completes with an outcome that fits its buses. -/
theorem exec_fits {i : Instr} {s : State} (hwf : i.wf = true)
    (hnd : ∀ c, i = .decode c → c < 2 ^ s.width.totalBits) :
    ∃ o, exec i s = .next (s.complete o) ∧ o.Fits s.width := by
  have hN : s.width.totalBits ≤ 39 := s.width.totalBits_le
  cases i with
  | encode d =>
    rcases execEncode_cases d s with ⟨-, e⟩ | ⟨-, e⟩
    · exact ⟨_, e, trivial⟩
    · refine ⟨_, e, (codewordOf_lt s.width d).trans_le ?_⟩
      exact Nat.pow_le_pow_right Nat.two_pos (by omega)
  | decode c => exact ⟨_, if_neg (Nat.not_le_of_lt (hnd c rfl)), diagnose_fits (hnd c rfl)⟩
  | inject c p =>
    rcases execInject_cases c p s with ⟨-, e⟩ | ⟨hp, e⟩
    · exact ⟨_, e, trivial⟩
    · obtain ⟨hc, -⟩ : fitsBus c = true ∧ fitsBus p = true := by simpa [Instr.wf] using hwf
      exact ⟨_, e, flipBit_lt (fitsBus_iff.mp hc) (by omega)⟩
  | isParity p => rcases execIsParity_cases p s with ⟨-, e⟩ | ⟨-, e⟩ <;> exact ⟨_, e, trivial⟩
  | positions =>
    refine ⟨_, rfl, maskOf_lt dataPositions_lt, maskOf_lt parityPositions_lt, ?_⟩
    show s.width.totalBits - 1 < 256
    omega

/-- The step on a command that draws nothing completes it with an outcome that fits its buses. -/
theorem step_fits {s : State} (hnd : s.port.drawsResult s.width = false) :
    ∃ o, step s = .next (s.complete o) ∧ o.Fits s.width := by
  cases hdec : decode s.fetch with
  | ok i =>
    rw [step_of_decode hdec]
    exact exec_fits (wf_of_decode hdec)
      fun c hc => lt_of_decode_of_not_draws hnd (hdec.trans (congrArg _ hc))
  | error e => exact ⟨_, step_of_reserved hdec, trivial⟩

/-- Settles O43: the outcome fits its buses, and the payload carries values that fit as they are. -/
theorem responsesFitTheirBuses : Obligations.ResponsesFitTheirBuses := by
  intro s t ht hnd
  obtain ⟨o, ho, hfits⟩ := step_fits hnd
  cases ho.symm.trans ht
  obtain ⟨hcodeword, hdecoded, -, hclasses⟩ := payloadOfEachResult _ _ (s.complete_ports o)
  refine ⟨_, s.complete_ports o, fun c hc => ?_, fun r hr => ?_, fun p hp => ?_⟩
  · obtain ⟨-, hword, -⟩ := hcodeword c hc
    cases hc
    exact hword hfits
  · have hpayload := hdecoded r hr
    cases hr
    obtain ⟨htyped, hle⟩ := hfits
    obtain ⟨-, hword, -, hdata, -, -, -, hpos, -⟩ := hpayload htyped
    exact ⟨hword, hdata, fun p hp => ⟨hpos p hp ((hle p hp).trans_lt (by decide)), hle p hp⟩⟩
  · obtain ⟨-, hword, haux, -, -, -, -, hpos⟩ := hclasses p hp
    cases hp
    obtain ⟨hdata, hparity, hglobal⟩ := hfits
    exact ⟨hword hdata, haux hparity, hpos hglobal⟩

/-! ### Decimal literals (R71) -/

/-- A decimal digit is read as the library reads it. -/
theorem digitValue_of_isDigit {c : Char} (h : c.isDigit = true) :
    digitValue c = c.toNat - '0'.toNat ∧ digitValue c < 10 := by
  obtain ⟨hle, hge⟩ : 48 ≤ c.toNat ∧ c.toNat ≤ 57 := Char.isDigit_iff_toNat.mp h
  have hval : digitValue c = c.toNat - 48 := if_pos ⟨hle, hge⟩
  exact ⟨hval, by omega⟩

/-- A string of decimal digits is read as the natural it denotes, where that fits an operand bus. -/
theorem parseDigits_ten {ds : List Char} (hne : ds ≠ []) (hdig : ∀ d ∈ ds, d.isDigit = true) :
    parseDigits 10 ds =
      if fitsBus (Nat.ofDigitChars 10 ds 0) then some (Nat.ofDigitChars 10 ds 0) else none := by
  have hfold : ds.foldl (fun acc d => acc * 10 + digitValue d) 0 = Nat.ofDigitChars 10 ds 0 := by
    rw [Nat.ofDigitChars_eq_foldl]
    refine List.foldl_ext _ _ _ fun acc d hd => ?_
    rw [(digitValue_of_isDigit (hdig d hd)).1, Nat.mul_comm]
  have hall : ds.all (fun d => decide (digitValue d < 10)) = true :=
    List.all_eq_true.mpr fun d hd => decide_eq_true (digitValue_of_isDigit (hdig d hd)).2
  simp [parseDigits, hne, hall, hfold]

/-- A string of decimal digits has no `0x` in front. -/
theorem parseLiteral_of_isDigit {ds : List Char} (hdig : ∀ d ∈ ds, d.isDigit = true) :
    parseLiteral ds = parseDigits 10 ds := by
  unfold parseLiteral
  split
  next ds => exact absurd (hdig 'x' (by simp)) (by decide)
  next => rfl

/-- Settles O57: the digits of `n` are decimal digits and denote `n`. -/
theorem decimalLiteralsDenoteThemselves : Obligations.DecimalLiteralsDenoteThemselves := by
  intro n
  have hdig : ∀ d ∈ Nat.toDigits 10 n, d.isDigit = true :=
    fun d hd => Nat.isDigit_of_mem_toDigits (by decide) (by decide) hd
  rw [parseLiteral_of_isDigit hdig, parseDigits_ten Nat.toDigits_ne_nil hdig, Nat.ofDigitChars_ten_toDigits]
  simp only [fitsBus_iff]

end Sys2Proof.Machine
end

section
/-! PROOFS. ENCODE (40_encode.md): the codeword bit by bit, its parities, DECODE of it, and, for every command,
that what a step answers is what the declarative rules allow. -/

namespace Sys2Proof.Machine

/-! ### XOR over a list, and popcount (00_scope.md R16) -/

/-- The XOR over a list, one of its indices set apart. -/
theorem xorOver_eq_xor_filter_ne {js : List Nat} (hn : js.Nodup) {a : Nat} (ha : a ∈ js) (f : Nat → Bool) :
    xorOver js f = (f a ^^ xorOver (js.filter fun j => j != a) f) := by
  have hsplit : ∀ j ∈ js, f j = ((decide (a = j) && f a) ^^ (j != a && f j)) := by
    intro j _
    by_cases h : a = j
    · simp [h]
    · simp [h, Ne.symm h]
  rw [xorOver_congr hsplit, xorOver_xor, xorOver_single hn, xorOver_filter, decide_eq_true ha, Bool.true_and]

/-- The XOR of bits is the parity of how many of them are set. -/
theorem toNat_xorOver (js : List Nat) (f : Nat → Bool) : (xorOver js f).toNat = (js.filter f).length % 2 := by
  induction js with
  | nil => rfl
  | cons j js ih =>
    cases hj : f j with
    | false => simpa [hj] using ih
    | true =>
      rw [xorOver_cons, hj, List.filter_cons_of_pos hj, List.length_cons, Nat.add_mod, ← ih]
      cases xorOver js f <;> rfl

/-! ### Writing bits one after another -/

/-- A bit whose index is written nowhere stays. -/
theorem testBit_foldl_setBit_of_ne {ks : List Nat} {place : Nat → Nat} (bit : Nat → Nat → Bool) (c : Nat)
    {j : Nat} (hj : ∀ k ∈ ks, place k ≠ j) :
    (ks.foldl (fun c k => setBit c (place k) (bit c k)) c).testBit j = c.testBit j :=
  List.foldlRecOn (motive := fun v : Nat => v.testBit j = c.testBit j) ks _ rfl
    fun _ hv k hk => by rw [testBit_setBit, if_neg (hj k hk), hv]

/-- Where no write disturbs a later one, each index holds what the first word gives it, so the order of the writes
does not matter. -/
theorem testBit_foldl_setBit {ks : List Nat} {place : Nat → Nat} {bit : Nat → Nat → Bool}
    (hks : ks.Pairwise fun a b => place b ≠ place a ∧ ∀ c v, bit (setBit c (place a) v) b = bit c b)
    {k : Nat} (hk : k ∈ ks) (c : Nat) :
    (ks.foldl (fun c k => setBit c (place k) (bit c k)) c).testBit (place k) = bit c k := by
  induction ks generalizing c with
  | nil => simp at hk
  | cons a ks ih =>
    obtain ⟨ha, hks⟩ := List.pairwise_cons.mp hks
    rw [List.foldl_cons]
    rcases List.mem_cons.mp hk with rfl | hk
    · rw [testBit_foldl_setBit_of_ne bit _ fun b hb => (ha b hb).1, testBit_setBit, if_pos rfl]
    · rw [ih hks hk, (ha k hk).2]

/-! ### Parity groups and parity positions (R83, 10_state.md R25) -/

theorem and_two_pow_ne_zero_iff {j i : Nat} : j &&& 2 ^ i ≠ 0 ↔ j.testBit i = true := by
  rw [Nat.and_two_pow]
  cases j.testBit i <;> simp

/-- A parity position is in its own group. -/
theorem two_pow_mem_parityGroup {w : Width} {i : Nat} (hi : i < w.parityBits) : 2 ^ i ∈ parityGroup w i := by
  refine mem_parityGroup.mpr ⟨Nat.one_le_two_pow, ?_, ?_⟩
  · exact Nat.le_sub_one_of_lt ((two_pow_lt_totalBits_iff w i).mpr hi)
  · exact and_two_pow_ne_zero_iff.mpr Nat.testBit_two_pow_self

/-- A parity position is in no other group (R85). -/
theorem two_pow_notMem_parityGroup {w : Width} {i k : Nat} (hik : i ≠ k) : 2 ^ k ∉ parityGroup w i := by
  intro hmem
  obtain ⟨-, -, hbit⟩ := mem_parityGroup.mp hmem
  rw [and_two_pow_ne_zero_iff, Nat.testBit_two_pow] at hbit
  exact hik (of_decide_eq_true hbit).symm

/-- A group reads another group's parity index nowhere. -/
theorem parityIndex_ne_of_mem_parityGroup {w : Width} {i j k : Nat} (hj : j ∈ parityGroup w i) (hne : j ≠ 2 ^ k) :
    parityIndex k ≠ j - 1 := by
  obtain ⟨hpos, -, -⟩ := mem_parityGroup.mp hj
  have hpow := Nat.two_pow_pos k
  unfold parityIndex
  omega

/-- The XOR over a group is its parity bit against its expected parity (R83, 41_decode.md R93). -/
theorem xorOver_parityGroup {w : Width} {i : Nat} (hi : i < w.parityBits) (c : Nat) :
    xorOver (parityGroup w i) (fun j => c.testBit (j - 1)) = (c.testBit (parityIndex i) ^^ expectedParity w i c) :=
  xorOver_eq_xor_filter_ne (parityGroup_nodup w i) (two_pow_mem_parityGroup hi) _

/-- No data bit sits at a parity index (10_state.md R26). -/
theorem dataPos_ne_parityIndex {w : Width} {k : Nat} (hk : k < w.dataBits) (i : Nat) :
    dataPos w k ≠ parityIndex i := by
  obtain ⟨-, hdata⟩ := mem_dataPositions.mp (List.mem_of_getElem? (getElem?_dataPositions w k hk))
  intro heq
  have hpow : isPow2 (parityIndex i + 1) = true := isPow2_iff.mpr ⟨i, Nat.sub_add_cancel Nat.one_le_two_pow⟩
  rw [heq, hpow] at hdata
  exact Bool.noConfusion hdata

/-! ### Scatter (R82) -/

theorem testBit_scatter_dataPos {w : Width} {k : Nat} (hk : k < w.dataBits) (data : Nat) :
    (scatter w data).testBit (dataPos w k) = data.testBit k := by
  refine testBit_foldl_setBit (bit := fun _ k => data.testBit k) ?_ (List.mem_range.mpr hk) 0
  refine List.pairwise_lt_range.imp_of_mem fun ha hb hlt => ⟨fun heq => ?_, fun _ _ => rfl⟩
  exact hlt.ne' (dataPos_injective (List.mem_range.mp hb) (List.mem_range.mp ha) heq)

theorem testBit_scatter_of_ne {w : Width} {j : Nat} (hj : ∀ k, k < w.dataBits → j ≠ dataPos w k) (data : Nat) :
    (scatter w data).testBit j = false :=
  (testBit_foldl_setBit_of_ne (fun _ k => data.testBit k) 0
    fun k hk => (hj k (List.mem_range.mp hk)).symm).trans (Nat.zero_testBit j)

/-! ### The parity-bit calculator and the global parity (R83, R84) -/

theorem testBit_placeParity_of_ne {w : Width} {j : Nat} (hj : ∀ i, i < w.parityBits → parityIndex i ≠ j) (c : Nat) :
    (placeParity w c).testBit j = c.testBit j :=
  testBit_foldl_setBit_of_ne _ c fun i hi => hj i (List.mem_range.mp hi)

/-- Each parity bit is the XOR of its group in the word given, whatever was written before it (R85). -/
theorem testBit_placeParity_parityIndex {w : Width} {i : Nat} (hi : i < w.parityBits) (c : Nat) :
    (placeParity w c).testBit (parityIndex i) = xorOver (parityGroup w i) fun j => c.testBit (j - 1) := by
  refine testBit_foldl_setBit (bit := fun c i => xorOver (parityGroup w i) fun j => c.testBit (j - 1)) ?_
    (List.mem_range.mpr hi) c
  refine List.pairwise_lt_range.imp fun {a b} hlt =>
    ⟨fun heq => hlt.ne' (parityIndex_injective heq), fun c v => xorOver_congr fun j hj => ?_⟩
  have hne : j ≠ 2 ^ a := fun heq => two_pow_notMem_parityGroup hlt.ne' (heq ▸ hj)
  rw [testBit_setBit, if_neg (parityIndex_ne_of_mem_parityGroup hj hne)]

theorem testBit_placeGlobal_of_ne {w : Width} {j : Nat} (hj : j ≠ globalIndex w) (c : Nat) :
    (placeGlobal w c).testBit j = c.testBit j := by
  rw [placeGlobal, testBit_setBit, if_neg hj.symm]

/-- The global bit is the XOR of the bits below it, and setting it changes none of those. -/
theorem testBit_placeGlobal_globalIndex (w : Width) (c : Nat) :
    (placeGlobal w c).testBit (globalIndex w) = parityBelow (globalIndex w) (placeGlobal w c) := by
  have hbelow : parityBelow (globalIndex w) (placeGlobal w c) = parityBelow (globalIndex w) c :=
    xorOver_congr fun j hj => testBit_placeGlobal_of_ne (List.mem_range.mp hj).ne c
  rw [hbelow, placeGlobal, testBit_setBit, if_pos rfl]

/-! ### The codeword (R80 to R86) -/

/-- Off the parity indices and the global one the codeword is the scattered word. -/
theorem testBit_codewordOf_of_ne {w : Width} {j : Nat} (hglobal : j < globalIndex w)
    (hparity : ∀ i, i < w.parityBits → parityIndex i ≠ j) (data : Nat) :
    (codewordOf w data).testBit j = (scatter w data).testBit j := by
  rw [codewordOf, testBit_placeGlobal_of_ne hglobal.ne, testBit_placeParity_of_ne hparity]

theorem testBit_codewordOf_dataPos {w : Width} {k : Nat} (hk : k < w.dataBits) (data : Nat) :
    (codewordOf w data).testBit (dataPos w k) = data.testBit k := by
  rw [testBit_codewordOf_of_ne (dataPos_lt w k hk) fun i _ => (dataPos_ne_parityIndex hk i).symm,
    testBit_scatter_dataPos hk]

theorem testBit_codewordOf_parityIndex {w : Width} {i : Nat} (hi : i < w.parityBits) (data : Nat) :
    (codewordOf w data).testBit (parityIndex i) =
      xorOver (parityGroup w i) fun j => (scatter w data).testBit (j - 1) := by
  rw [codewordOf, testBit_placeGlobal_of_ne (parityIndex_lt w i hi).ne, testBit_placeParity_parityIndex hi]

/-- A group's expected parity reads bits that the parity bits do not change. -/
theorem expectedParity_codewordOf (w : Width) (i data : Nat) :
    expectedParity w i (codewordOf w data) = expectedParity w i (scatter w data) := by
  refine xorOver_congr fun j hj => ?_
  obtain ⟨hmem, hown⟩ := List.mem_filter.mp hj
  obtain ⟨hpos, hle, -⟩ := mem_parityGroup.mp hmem
  refine testBit_codewordOf_of_ne (by omega) (fun k _ => parityIndex_ne_of_mem_parityGroup hmem ?_) data
  rintro rfl
  by_cases hik : i = k
  · simp [hik] at hown
  · exact two_pow_notMem_parityGroup hik hmem

/-- Even parity over every group (R85): the parity bit is the XOR of the group in the scattered word, where its own
place is still zero. -/
theorem xorOver_parityGroup_codewordOf {w : Width} {i : Nat} (hi : i < w.parityBits) (data : Nat) :
    xorOver (parityGroup w i) (fun j => (codewordOf w data).testBit (j - 1)) = false := by
  have hzero : (scatter w data).testBit (parityIndex i) = false :=
    testBit_scatter_of_ne (fun k hk => (dataPos_ne_parityIndex hk i).symm) data
  rw [xorOver_parityGroup hi, testBit_codewordOf_parityIndex hi, xorOver_parityGroup hi, hzero,
    expectedParity_codewordOf, Bool.false_xor, Bool.xor_self]

theorem testBit_codewordOf_globalIndex (w : Width) (data : Nat) :
    (codewordOf w data).testBit (globalIndex w) = parityBelow (globalIndex w) (codewordOf w data) :=
  testBit_placeGlobal_globalIndex w _

/-- The parity of all `N` bits is that of the bits below the global one, and the global bit. -/
theorem overallParity_eq_xor (w : Width) (c : Nat) :
    overallParity w c = (parityBelow (globalIndex w) c ^^ c.testBit (globalIndex w)) := by
  have hN : w.totalBits = globalIndex w + 1 := rfl
  simp [overallParity, hN, parityBelow, List.range_succ, xorOver_append]

/-- Even parity over the whole word (R85). -/
theorem overallParity_codewordOf (w : Width) (data : Nat) : overallParity w (codewordOf w data) = false := by
  rw [overallParity_eq_xor, testBit_codewordOf_globalIndex, Bool.xor_self]

/-- What ENCODE computes has the declarative properties of a codeword (R82 to R86). -/
theorem codewordOf_isCodewordOf (w : Width) (data : Nat) : IsCodewordOf w data (codewordOf w data) :=
  ⟨codewordOf_lt w data, fun _ hk => testBit_codewordOf_dataPos hk data,
    fun _ hi => xorOver_parityGroup_codewordOf hi data, overallParity_codewordOf w data⟩

/-- The parity bit of a codeword is the expected parity of its group (R83). -/
theorem testBit_codewordOf_eq_expectedParity {w : Width} {i : Nat} (hi : i < w.parityBits) (data : Nat) :
    (codewordOf w data).testBit (parityIndex i) = expectedParity w i (codewordOf w data) := by
  have heven := xorOver_parityGroup_codewordOf hi data
  rw [xorOver_parityGroup hi] at heven
  simpa using heven

/-- Zero is a codeword, that of zero (R80): every bit written to a zero word is zero. -/
theorem codewordOf_zero (w : Width) : codewordOf w 0 = 0 := by
  have hset : ∀ i, setBit 0 i false = 0 := fun i => if_pos (Nat.zero_testBit i)
  have hxor : ∀ js, xorOver js (fun _ => false) = false := by
    intro js
    induction js with
    | nil => rfl
    | cons j js ih => rw [xorOver_cons, ih, Bool.false_xor]
  have hscatter : scatter w 0 = 0 :=
    List.foldlRecOn (motive := (· = 0)) _ _ rfl fun c hc k _ => by rw [hc, Nat.zero_testBit, hset]
  have hparity : placeParity w 0 = 0 :=
    List.foldlRecOn (motive := (· = 0)) _ _ rfl fun c hc k _ => by simp only [hc, Nat.zero_testBit, hxor, hset]
  have hglobal : parityBelow (globalIndex w) 0 = false :=
    (xorOver_congr fun j _ => Nat.zero_testBit j).trans (hxor _)
  rw [codewordOf, hscatter, hparity, placeGlobal, hglobal, hset]

/-! ### ENCODE -/

/-- ENCODE of a data word that fits completes with its codeword (R80, R81). -/
theorem exec_encode_of_lt {s : State} {data : Nat} (h : data < 2 ^ s.width.dataBits) :
    exec (.encode data) s = .next { s with response := some (.ok (.codeword (codewordOf s.width data))) } :=
  if_neg (Nat.not_le_of_lt h)

/-- Settles O16: the codeword is the scattered word at the data positions. -/
theorem encodeScattersTheData : Obligations.EncodeScattersTheData := fun _ data h =>
  ⟨⟨_, exec_encode_of_lt h, fun _ hk => testBit_codewordOf_dataPos hk data⟩,
    fun _ hk => testBit_scatter_dataPos hk data, fun _ hj => testBit_scatter_of_ne hj data⟩

/-- Settles O17: even parity over the group, read at its parity bit. -/
theorem encodeSetsEachParityBit : Obligations.EncodeSetsEachParityBit := fun _ data h =>
  ⟨_, exec_encode_of_lt h, fun _ hi => ⟨fun _ => mem_parityGroup, testBit_codewordOf_eq_expectedParity hi data⟩⟩

/-- Settles O18: the global bit is an XOR, and that counts the ones modulo 2. -/
theorem encodeSetsTheGlobalParity : Obligations.EncodeSetsTheGlobalParity := fun s data h =>
  ⟨_, exec_encode_of_lt h,
    (congrArg Bool.toNat (testBit_codewordOf_globalIndex s.width data)).trans (toNat_xorOver _ _)⟩

/-- Settles O19: the parities of the codeword, and of the scattered word at each parity bit. -/
theorem encodeGivesEvenParity : Obligations.EncodeGivesEvenParity := by
  refine ⟨fun s data h => ⟨_, exec_encode_of_lt h, fun i hi => xorOver_parityGroup_codewordOf hi data, ?_,
    fun i hi => testBit_codewordOf_parityIndex hi data⟩, fun w i k hik => two_pow_notMem_parityGroup hik⟩
  rw [← toNat_xorOver]
  exact congrArg Bool.toNat (overallParity_codewordOf s.width data)

/-- Settles O20: every bit is written below index `N`. -/
theorem encodeFitsTheCodeword : Obligations.EncodeFitsTheCodeword := fun s data h =>
  ⟨_, exec_encode_of_lt h, codewordOf_lt s.width data⟩

/-! ### The syndrome and the data of a received word (41_decode.md R93, R94, R101) -/

/-- The syndrome is the mask of the groups whose parity bit is not the expected one. -/
theorem syndrome_eq_maskOf (w : Width) (c : Nat) : syndrome w c =
    maskOf ((List.range w.parityBits).filter fun i => expectedParity w i c != c.testBit (parityIndex i)) := by
  rw [maskOf, List.foldl_filter, syndrome]

/-- A group beyond the `r`-th is empty: no position below `N` has so high a bit. -/
theorem parityGroup_eq_nil {w : Width} {i : Nat} (hi : w.parityBits ≤ i) : parityGroup w i = [] := by
  refine List.eq_nil_iff_forall_not_mem.mpr fun j hj => ?_
  obtain ⟨-, hle, hbit⟩ := mem_parityGroup.mp hj
  have hN : w.totalBits ≤ 2 ^ i := w.parityBits_spec.1.trans (Nat.pow_le_pow_right Nat.two_pos hi)
  have hlt : j < 2 ^ i := (hle.trans_lt (Nat.sub_one_lt w.totalBits_pos.ne')).trans_le hN
  rw [and_two_pow_ne_zero_iff, Nat.testBit_eq_false_of_lt hlt] at hbit
  exact Bool.noConfusion hbit

/-- Bit `i` of the syndrome is the XOR over group `i`, its parity bit included. -/
theorem testBit_syndrome (w : Width) (c i : Nat) :
    (syndrome w c).testBit i = xorOver (parityGroup w i) fun j => c.testBit (j - 1) := by
  rw [syndrome_eq_maskOf, testBit_maskOf]
  by_cases hi : i < w.parityBits
  · rw [xorOver_parityGroup hi, Bool.xor_comm]
    simp only [List.mem_filter, List.mem_range, hi, true_and, Bool.decide_eq_true, Bool.bne_eq_xor]
  · rw [parityGroup_eq_nil (Nat.le_of_not_lt hi)]
    simp [hi]

/-- Bit `k` of an XOR of positions is the XOR of their bits `k`. -/
theorem testBit_foldr_xor_succ (is : List Nat) (p : Nat → Bool) (k : Nat) :
    (is.foldr (fun i acc => if p i then (i + 1) ^^^ acc else acc) 0).testBit k =
      xorOver is fun i => (i + 1).testBit k && p i := by
  induction is with
  | nil => simp
  | cons i is ih => cases hp : p i <;> simp [hp, ih]

/-- Bit `i` of the closed form is the XOR over group `i` too. -/
theorem testBit_positionXor (w : Width) (c i : Nat) :
    (positionXor w c).testBit i = xorOver (parityGroup w i) fun j => c.testBit (j - 1) := by
  have hgroup : ∀ j, ((j &&& 2 ^ i) != 0) = j.testBit i := fun j =>
    Bool.eq_iff_iff.mpr (bne_iff_ne.trans and_two_pow_ne_zero_iff)
  rw [positionXor, testBit_foldr_xor_succ, parityGroup, xorOver_filter, xorOver_map]
  simp only [hgroup, Nat.add_sub_cancel]

/-- The closed form of the syndrome (R94). -/
theorem syndrome_eq_positionXor (w : Width) (c : Nat) : syndrome w c = positionXor w c :=
  Nat.eq_of_testBit_eq fun i => (testBit_syndrome w c i).trans (testBit_positionXor w c i).symm

/-- A word that has the bits of a natural at the data positions yields that natural's low `D` bits. -/
theorem extractData_eq_mod {w : Width} {c d : Nat}
    (h : ∀ k, k < w.dataBits → c.testBit (dataPos w k) = d.testBit k) :
    extractData w c = d % 2 ^ w.dataBits := by
  rw [extractData, ← sum_testBit_eq_mod d]
  refine congrArg List.sum (List.map_congr_left fun k hk => ?_)
  rw [h k (List.mem_range.mp hk)]

/-- Bit `k` of the data word is the bit at `dataPos(k)` (R101). -/
theorem testBit_extractData {w : Width} {k : Nat} (hk : k < w.dataBits) (c : Nat) :
    (extractData w c).testBit k = c.testBit (dataPos w k) := by
  have hdata : extractData w c = Nat.ofBits fun i : Fin w.dataBits => c.testBit (dataPos w i) :=
    (extractData_eq_mod fun k hk => by rw [Nat.testBit_ofBits_lt _ k hk]).trans
      (Nat.mod_eq_of_lt (Nat.ofBits_lt_two_pow _))
  rw [hdata, Nat.testBit_ofBits_lt _ k hk]

/-! ### DECODE of a codeword (R88, 41_decode.md R106 item 1) -/

theorem extractData_codewordOf {w : Width} {d : Nat} (hd : d < 2 ^ w.dataBits) :
    extractData w (codewordOf w d) = d :=
  (extractData_eq_mod fun _ hk => testBit_codewordOf_dataPos hk d).trans (Nat.mod_eq_of_lt hd)

/-- A codeword has syndrome 0: every group has even parity. -/
theorem syndrome_codewordOf (w : Width) (d : Nat) : syndrome w (codewordOf w d) = 0 := by
  refine Nat.eq_of_testBit_eq fun i => ?_
  rw [testBit_syndrome, Nat.zero_testBit]
  by_cases hi : i < w.parityBits
  · exact xorOver_parityGroup_codewordOf hi d
  · rw [parityGroup_eq_nil (Nat.le_of_not_lt hi), xorOver_nil]

/-- The diagnosis of a codeword: no error, and the data it was made of. -/
theorem diagnose_codewordOf {w : Width} {d : Nat} (hd : d < 2 ^ w.dataBits) : diagnose w (codewordOf w d) =
    { errorDetected := false, errorKind := .none, errorPosition := none,
      correctedCodeword := codewordOf w d, originalData := d } := by
  simp [diagnose, syndrome_codewordOf, overallParity_codewordOf, resultOf, extractData_codewordOf hd]

/-- DECODE of a codeword completes with no error and the data it was made of. -/
theorem exec_decode_codewordOf {s : State} {w : Width} (hw : s.width = w) {d : Nat} (hd : d < 2 ^ w.dataBits) :
    exec (.decode (codewordOf w d)) s = .next { s with
      response := some (.ok (.decoded { errorDetected := false, errorKind := .none, errorPosition := none,
                                        correctedCodeword := codewordOf w d, originalData := d })) } := by
  subst hw
  rw [← diagnose_codewordOf hd]
  exact if_neg (Nat.not_le_of_lt (codewordOf_lt s.width d))

theorem codewordOf_injective {w : Width} {d d' : Nat} (hd : d < 2 ^ w.dataBits) (hd' : d' < 2 ^ w.dataBits)
    (h : codewordOf w d = codewordOf w d') : d = d' := by
  rw [← extractData_codewordOf hd, h, extractData_codewordOf hd']

/-- Settles O21: DECODE reads the data back, so no two data words share a codeword. -/
theorem encodeIsInjectiveAndRoundTrips : Obligations.EncodeIsInjectiveAndRoundTrips := by
  intro s d hd
  refine ⟨_, exec_encode_of_lt hd, fun s' hw => exec_decode_codewordOf hw hd, fun d' hd' h => ?_⟩
  have hcodeword : codewordOf s.width d' = codewordOf s.width d := by
    simpa using (exec_encode_of_lt hd').symm.trans h
  exact codewordOf_injective hd' hd hcodeword

/-- Settles O22: zero is the codeword of zero. -/
theorem zeroIsValidDataAndCodeword : Obligations.ZeroIsValidDataAndCodeword := by
  intro s
  have hencode := exec_encode_of_lt (s := s) (Nat.two_pow_pos _)
  have hdecode := exec_decode_codewordOf (s := s) rfl (Nat.two_pow_pos _)
  rw [codewordOf_zero] at hencode hdecode
  exact ⟨hencode, hdecode⟩

/-! ### What DECODE, ISPARITY and POSITIONS answer, declaratively -/

/-- The data word comes from the corrected word in every branch (41_decode.md R101). -/
theorem originalData_diagnose (w : Width) (c : Nat) :
    (diagnose w c).originalData = extractData w (diagnose w c).correctedCodeword := by
  rcases diagnose_cases w c with ⟨-, -, e⟩ | ⟨-, -, e⟩ | ⟨-, -, e⟩ | ⟨-, -, e⟩ <;> rw [e] <;> rfl

/-- The locator follows the rules of 41_decode.md R94 to R101. -/
theorem diagnose_isDiagnosisOf (w : Width) (c : Nat) : IsDiagnosisOf w c (diagnose w c) := by
  refine ⟨?_, ?_, ?_, fun k hk => ?_⟩
  · rw [← syndrome_eq_positionXor]
    change _ = classification w c (syndrome w c) (overallParity w c)
    rcases diagnose_cases w c with ⟨hs, hp, e⟩ | ⟨hs, hp, e⟩ | ⟨hs, hp, e⟩ | ⟨hs, hp, e⟩ <;>
      simp [e, hs, hp, classification, resultOf, flipBit, globalIndex]
  · rcases diagnose_cases w c with ⟨-, -, e⟩ | ⟨-, -, e⟩ | ⟨-, -, e⟩ | ⟨-, -, e⟩ <;> rw [e] <;> rfl
  · rw [originalData_diagnose]
    exact extractData_lt w _
  · rw [originalData_diagnose, testBit_extractData hk]

/-- A drawn result is of the type that 41_decode.md R104 gives it. -/
theorem drawnResult_typed (w : Width) (n : Nat) : (drawnResult w n).Typed w := by
  refine ⟨?_, (Config.freeCorrected n).isLt, Nat.mod_lt _ (Nat.two_pow_pos _)⟩
  by_cases h : Config.freeKind n = .single <;> simp [drawnResult, h]

/-- ISPARITY's test holds at the indices `2^i - 1`, `i < r`, and no other (43_classify.md R120). -/
theorem isParityIndex_iff {w : Width} {p : Nat} :
    isParityIndex w p = true ↔ ∃ i, i < w.parityBits ∧ p = 2 ^ i - 1 := by
  have hN : 1 < w.totalBits := by cases w <;> decide
  simp only [isParityIndex, Bool.and_eq_true, isPow2_iff, decide_eq_true_eq, ← two_pow_lt_totalBits_iff]
  constructor
  · rintro ⟨⟨i, hi⟩, hp⟩
    exact ⟨i, by omega, by omega⟩
  · rintro ⟨i, hi, rfl⟩
    have hpow := Nat.two_pow_pos i
    exact ⟨⟨i, by omega⟩, by omega⟩

/-- A listed data position is an index below the global one whose position is no power of two (10_state.md R26). -/
theorem mem_positionClasses_dataPositions {w : Width} {i : Nat} :
    i ∈ (positionClasses w).dataPositions ↔ i + 1 < w.totalBits ∧ ∀ k, i + 1 ≠ 2 ^ k := by
  rw [positionClasses_dataPositions, mem_dataPositions, ← Bool.not_eq_true, isPow2_iff, not_exists, globalIndex,
    Nat.lt_sub_iff_add_lt]

/-! ### Every step settles the response -/

theorem execEncode_answers {c : Command} (hop : c.op = 0b000#3) {s t : State}
    (h : execEncode c.operandA s = .next t) : ∃ o, t.response = some o ∧ Answers s.width c o := by
  rcases execEncode_cases c.operandA s with ⟨hle, e⟩ | ⟨hlt, e⟩ <;> cases e.symm.trans h <;> refine ⟨_, rfl, ?_⟩
  · simp [Answers, hop, Nat.not_lt_of_le hle]
  · simpa [Answers, hop, hlt] using codewordOf_isCodewordOf s.width c.operandA

theorem execDecode_answers {c : Command} (hop : c.op = 0b001#3) {s t : State}
    (h : execDecode c.operandA s = .next t) : ∃ o, t.response = some o ∧ Answers s.width c o := by
  rcases execDecode_cases c.operandA s with ⟨hle, e⟩ | ⟨hlt, e⟩ <;> cases e.symm.trans h <;> refine ⟨_, rfl, ?_⟩
  · simpa [Answers, hop, Nat.not_lt_of_le hle] using drawnResult_typed s.width s.draws
  · simpa [Answers, hop, hlt] using ⟨(diagnose_fits hlt).1, diagnose_isDiagnosisOf s.width c.operandA⟩

theorem execInject_answers {c : Command} (hop : c.op = 0b010#3) {s t : State}
    (h : execInject c.operandA c.operandB s = .next t) : ∃ o, t.response = some o ∧ Answers s.width c o := by
  rcases execInject_cases c.operandA c.operandB s with ⟨hle, e⟩ | ⟨hlt, e⟩ <;> cases e.symm.trans h <;>
    refine ⟨_, rfl, ?_⟩
  · simp [Answers, hop, Nat.not_lt_of_le hle]
  · simp [Answers, hop, hlt, flipBit]

theorem execIsParity_answers {c : Command} (hop : c.op = 0b011#3) {s t : State}
    (h : execIsParity c.operandB s = .next t) : ∃ o, t.response = some o ∧ Answers s.width c o := by
  rcases execIsParity_cases c.operandB s with ⟨hle, e⟩ | ⟨hlt, e⟩ <;> cases e.symm.trans h <;>
    refine ⟨_, rfl, ?_⟩
  · simp [Answers, hop, Nat.not_lt_of_le hle]
  · simpa [Answers, hop, hlt] using isParityIndex_iff

theorem execPositions_answers {c : Command} (hop : c.op = 0b100#3) {s t : State}
    (h : execPositions s = .next t) : ∃ o, t.response = some o ∧ Answers s.width c o := by
  cases h
  have hlist := positionClasses_dataPositions s.width
  have hlength : (positionClasses s.width).dataPositions.length = s.width.dataBits :=
    hlist ▸ length_dataPositions s.width
  have hasc : (positionClasses s.width).dataPositions.Pairwise (· < ·) :=
    hlist ▸ dataPositions_pairwise_lt s.width
  have hanswers : Answers s.width c (.ok (.classes (positionClasses s.width))) := by
    rw [Answers, hop]
    exact ⟨_, rfl, hlength, hasc, fun _ => mem_positionClasses_dataPositions, rfl, rfl⟩
  exact ⟨_, rfl, hanswers⟩

/-- Whatever the decoder reads from the buses, its meaning answers as the rules allow. -/
theorem exec_answers {c : Command} {i : Instr} (hdec : decode c = .ok i) {s t : State}
    (h : exec i s = .next t) : ∃ o, t.response = some o ∧ Answers s.width c o := by
  rcases decode_cases c with ⟨hop, e⟩ | ⟨hop, e⟩ | ⟨hop, e⟩ | ⟨hop, e⟩ | ⟨hop, e⟩ | ⟨-, e⟩ <;>
    cases e.symm.trans hdec
  · exact execEncode_answers hop h
  · exact execDecode_answers hop h
  · exact execInject_answers hop h
  · exact execIsParity_answers hop h
  · exact execPositions_answers hop h

/-- A reserved select is allowed `IllegalCommand` and nothing else (30_encoding.md R56). -/
theorem answers_of_reserved {c : Command} {e : DecodeError} (hdec : decode c = .error e) (w : Width) :
    Answers w c (.err .illegalCommand) := by
  rcases decode_cases c with ⟨-, e⟩ | ⟨-, e⟩ | ⟨-, e⟩ | ⟨-, e⟩ | ⟨-, e⟩ | ⟨hop, -⟩
  iterate 5
    · cases e.symm.trans hdec
  · unfold Answers
    split
    case h_6 => rfl
    all_goals omega

/-- Settles O46: the decoder gives a command, whose meaning answers as the rules allow, or its error; and the step
leaves width and port as they were. -/
theorem everyStepSettlesTheResponse : Obligations.EveryStepSettlesTheResponse := by
  intro s t ht
  have hport : t.port = s.port := by rw [commandsChangeOnlyTheResponse s t ht]
  rw [State.Settled, step_width ht, hport]
  cases hdec : decode s.fetch with
  | ok i =>
    rw [step_of_decode hdec] at ht
    exact exec_answers hdec ht
  | error e =>
    cases (step_of_reserved hdec).symm.trans ht
    exact ⟨_, rfl, answers_of_reserved hdec s.width⟩

end Sys2Proof.Machine
end

section
/-! PROOFS. DECODE (41_decode.md): the syndrome and the overall parity of a word, what flips do to them, the
classification, and the guarantees for one and two flips. -/

namespace Sys2Proof.Machine

/-! ### The overall parity and the syndrome (R92 to R94) -/

/-- Settles O23: the XOR of all `N` bits counts the ones modulo 2. -/
theorem overallParityCountsTheOnes : Obligations.OverallParityCountsTheOnes := fun _ _ => toNat_xorOver _ _

/-- Settles O24: bit `i` is the XOR over the whole group, which is the parity bit against the expected parity. -/
theorem syndromeBitsAreGroupMismatches : Obligations.SyndromeBitsAreGroupMismatches := by
  intro w c
  refine ⟨syndrome_lt w c, fun i hi => ?_⟩
  change _ ↔ expectedParity w i c ≠ c.testBit (parityIndex i)
  rw [testBit_syndrome, xorOver_parityGroup hi, Bool.xor_comm, ← Bool.bne_eq_xor, bne_iff_ne]

/-- Bit `k` of the syndrome, read on 0-based indices. -/
theorem testBit_syndrome_indices (w : Width) (c k : Nat) : (syndrome w c).testBit k =
    xorOver ((List.range (globalIndex w)).filter fun i => (i + 1).testBit k) c.testBit := by
  rw [syndrome_eq_positionXor, positionXor, testBit_foldr_xor_succ, xorOver_filter]

/-! ### What a flip does (R94) -/

/-- A flip inverts the XOR over the indices it is among. -/
theorem xorOver_testBit_flipBit {js : List Nat} (hn : js.Nodup) (c i : Nat) :
    xorOver js (flipBit c i).testBit = (xorOver js c.testBit ^^ decide (i ∈ js)) := by
  have hflip : ∀ j ∈ js, (flipBit c i).testBit j = (c.testBit j ^^ (decide (i = j) && true)) := fun j _ => by
    rw [testBit_flipBit, Bool.and_true]
  rw [xorOver_congr hflip, xorOver_xor, xorOver_single hn, Bool.and_true]

/-- What a flip of index `i` adds to the syndrome: its 1-based position, or nothing for the global index, which no
group covers. -/
def flipSyndrome (w : Width) (i : Nat) : Nat := if i < globalIndex w then i + 1 else 0

theorem flipSyndrome_of_lt {w : Width} {i : Nat} (h : i < globalIndex w) : flipSyndrome w i = i + 1 := if_pos h

theorem flipSyndrome_globalIndex (w : Width) : flipSyndrome w (globalIndex w) = 0 := if_neg (Nat.lt_irrefl _)

/-- Distinct indices below `N` add distinct values to the syndrome. -/
theorem flipSyndrome_injective {w : Width} {p q : Nat} (hp : p < w.totalBits) (hq : q < w.totalBits)
    (h : flipSyndrome w p = flipSyndrome w q) : p = q := by
  unfold flipSyndrome globalIndex at h
  split at h <;> split at h <;> omega

/-- A flip adds its position to the syndrome, whatever the word. -/
theorem syndrome_flipBit (w : Width) (c i : Nat) :
    syndrome w (flipBit c i) = syndrome w c ^^^ flipSyndrome w i := by
  refine Nat.eq_of_testBit_eq fun k => ?_
  rw [Nat.testBit_xor, testBit_syndrome_indices, testBit_syndrome_indices,
    xorOver_testBit_flipBit (List.nodup_range.filter _), flipSyndrome]
  by_cases hi : i < globalIndex w <;> simp [hi]

/-- A flip of an index below `N` inverts the overall parity. -/
theorem overallParity_flipBit {w : Width} {i : Nat} (hi : i < w.totalBits) (c : Nat) :
    overallParity w (flipBit c i) = !overallParity w c := by
  rw [overallParity, parityBelow, xorOver_testBit_flipBit List.nodup_range, decide_eq_true (List.mem_range.mpr hi),
    Bool.xor_true, overallParity, parityBelow]

/-- Flips one after another add all their positions. -/
theorem syndrome_foldl_flipBit (w : Width) (flips : List Nat) (c : Nat) : syndrome w (flips.foldl flipBit c) =
    syndrome w c ^^^ ((flips.filter fun i => decide (i < globalIndex w)).map (· + 1)).foldr (· ^^^ ·) 0 := by
  induction flips generalizing c with
  | nil => simp
  | cons i is ih =>
    rw [List.foldl_cons, ih, syndrome_flipBit, Nat.xor_assoc]
    by_cases hi : i < globalIndex w <;> simp [flipSyndrome, hi]

/-- Flips below `N` one after another add their number to the overall parity. -/
theorem toNat_overallParity_foldl_flipBit {w : Width} {flips : List Nat} (h : ∀ i ∈ flips, i < w.totalBits)
    (c : Nat) : (overallParity w (flips.foldl flipBit c)).toNat =
      ((overallParity w c).toNat + flips.length) % 2 := by
  induction flips generalizing c with
  | nil => exact (Nat.mod_eq_of_lt (Bool.toNat_lt _)).symm
  | cons i is ih =>
    obtain ⟨hi, his⟩ := List.forall_mem_cons.mp h
    rw [List.foldl_cons, ih his, overallParity_flipBit hi, List.length_cons]
    cases overallParity w c <;> simp <;> omega

/-- Settles O25: the closed form, and the flips of a codeword, whose syndrome and parity are zero. -/
theorem syndromeIsTheXorOfSetPositions : Obligations.SyndromeIsTheXorOfSetPositions := by
  refine ⟨syndrome_eq_positionXor, fun s data flips hdata _ hflips => ⟨_, exec_encode_of_lt hdata, ?_, ?_⟩⟩
  · rw [syndrome_foldl_flipBit, syndrome_codewordOf, Nat.zero_xor]
    rfl
  · rw [toNat_overallParity_foldl_flipBit hflips, overallParity_codewordOf, Bool.toNat_false, Nat.zero_add]

/-! ### The data word of a flipped word (R101) -/

/-- A flip off the data positions leaves the data word. -/
theorem extractData_flipBit_of_ne {w : Width} {i : Nat} (h : ∀ k, k < w.dataBits → i ≠ dataPos w k) (c : Nat) :
    extractData w (flipBit c i) = extractData w c := by
  rw [← Nat.mod_eq_of_lt (extractData_lt w c)]
  refine extractData_eq_mod fun k hk => ?_
  rw [testBit_flipBit, decide_eq_false (h k hk), Bool.xor_false, testBit_extractData hk]

/-- A flip at or above the global index leaves the data word. -/
theorem extractData_flipBit_of_globalIndex_le {w : Width} {i : Nat} (h : globalIndex w ≤ i) (c : Nat) :
    extractData w (flipBit c i) = extractData w c :=
  extractData_flipBit_of_ne (fun k hk => ((dataPos_lt w k hk).trans_le h).ne') c

/-- A flip of a parity bit leaves the data word. -/
theorem extractData_flipBit_parityIndex (w : Width) (i c : Nat) :
    extractData w (flipBit c (parityIndex i)) = extractData w c :=
  extractData_flipBit_of_ne (fun _ hk => (dataPos_ne_parityIndex hk i).symm) c

/-- A flip at `dataPos(k)` flips data bit `k`. -/
theorem extractData_flipBit_dataPos {w : Width} {k : Nat} (hk : k < w.dataBits) (c : Nat) :
    extractData w (flipBit c (dataPos w k)) = flipBit (extractData w c) k := by
  rw [← Nat.mod_eq_of_lt (flipBit_lt (extractData_lt w c) hk)]
  refine extractData_eq_mod fun j hj => ?_
  have hplace : dataPos w k = dataPos w j ↔ k = j := ⟨dataPos_injective hk hj, congrArg _⟩
  rw [testBit_flipBit, testBit_flipBit, testBit_extractData hj, decide_eq_decide.mpr hplace]

/-! ### The classification (R95 to R101) -/

section
variable {w : Width} {c : Nat}

/-- R96. -/
theorem diagnose_of_zero_even (hs : syndrome w c = 0) (hp : overallParity w c = false) :
    diagnose w c = resultOf w false .none none c := by
  simp [diagnose, hs, hp]

/-- R97. -/
theorem diagnose_of_ne_zero_odd (hs : syndrome w c ≠ 0) (hp : overallParity w c = true) :
    diagnose w c = resultOf w true .single (some (syndrome w c - 1)) (flipBit c (syndrome w c - 1)) := by
  simp [diagnose, hs, hp]

/-- R98. -/
theorem diagnose_of_ne_zero_even (hs : syndrome w c ≠ 0) (hp : overallParity w c = false) :
    diagnose w c = resultOf w true .double none c := by
  simp [diagnose, hs, hp]

/-- R99. -/
theorem diagnose_of_zero_odd (hs : syndrome w c = 0) (hp : overallParity w c = true) :
    diagnose w c = resultOf w true .single (some (globalIndex w)) (flipBit c (globalIndex w)) := by
  simp [diagnose, hs, hp]

end

/-- DECODE of a word below `2^N` completes with its diagnosis (R90). -/
theorem exec_decode_of_lt {s : State} {c : Nat} (h : c < 2 ^ s.width.totalBits) :
    exec (.decode c) s = .next { s with response := some (.ok (.decoded (diagnose s.width c))) } :=
  if_neg (Nat.not_le_of_lt h)

/-- Settles O26: one case for each of R96 to R99. -/
theorem decodeClassifiesFourWays : Obligations.DecodeClassifiesFourWays := by
  intro s c hc
  refine ⟨_, exec_decode_of_lt hc, fun hs hp => ?_, fun hs hp => ?_, fun hs hp => ?_, fun hs hp => ?_⟩
  · rw [diagnose_of_zero_even hs hp]
    exact ⟨rfl, rfl, rfl, rfl⟩
  · rw [diagnose_of_ne_zero_odd hs hp]
    exact ⟨rfl, rfl, rfl, rfl⟩
  · rw [diagnose_of_ne_zero_even hs hp]
    exact ⟨rfl, rfl, rfl, rfl⟩
  · rw [diagnose_of_zero_odd hs hp]
    exact ⟨rfl, rfl, rfl, rfl⟩

/-- Settles O27: the diagnosis follows R101 in every branch. -/
theorem decodeExtractsTheDataBits : Obligations.DecodeExtractsTheDataBits := by
  intro s c hc
  obtain ⟨-, -, hlt, hbits⟩ := diagnose_isDiagnosisOf s.width c
  exact ⟨_, exec_decode_of_lt hc, hlt, hbits⟩

/-! ### Every operand (R102, R104) -/

/-- Settles O28: drawn or diagnosed, the outcome is a decoding result. -/
theorem decodeNeverRaises : Obligations.DecodeNeverRaises := by
  intro s c
  rcases execDecode_cases c s with ⟨-, e⟩ | ⟨-, e⟩ <;> exact ⟨_, _, _, e, rfl, rfl, rfl⟩

/-- Settles O29: the drawn result has the type that R104 gives it. -/
theorem wideDecodeGivesATypedResult : Obligations.WideDecodeGivesATypedResult := fun s _ hc =>
  ⟨drawnResult s.width s.draws, drawnResult_typed s.width s.draws, if_pos hc⟩

/-! ### Beyond the code's guarantee (R105, R107) -/

/-- R105's example. -/
theorem diagnose_w8_0xAAD : diagnose .w8 0xAAD =
    { errorDetected := true, errorKind := .single, errorPosition := some 13
      correctedCodeword := 0x2AAD, originalData := 0xA5 } := by decide

/-- Settles O30: the syndrome has `r` bits, and the bit that is flipped is above every data position. -/
theorem syndromeBeyondTheCodeword : Obligations.SyndromeBeyondTheCodeword := by
  refine ⟨fun s hw => ?_, fun s c hc hp hs => ?_⟩
  · rw [← diagnose_w8_0xAAD, ← hw]
    exact exec_decode_of_lt (hw ▸ by decide)
  · have hlt := syndrome_lt s.width c
    refine ⟨by omega, by omega, ?_⟩
    have hglobal : globalIndex s.width ≤ syndrome s.width c - 1 := by unfold globalIndex; omega
    rw [exec_decode_of_lt hc, diagnose_of_ne_zero_odd (by omega) hp, resultOf,
      extractData_flipBit_of_globalIndex_le hglobal]
    rfl

/-- Indices 0, 1 and 2 are two parity bits and data bit 0 (10_state.md R28). -/
theorem xor_seven_eq_flips (w : Width) (c : Nat) :
    c ^^^ 0b111 = flipBit (flipBit (flipBit c (parityIndex 0)) (parityIndex 1)) (dataPos w 0) := by
  have hzero : dataPos w 0 = 2 := by cases w <;> decide
  simp [flipBit, parityIndex, hzero, Nat.xor_assoc]

/-- The positions 1, 2 and 3 of those indices cancel. -/
theorem flipSyndrome_cancel (w : Width) :
    flipSyndrome w (parityIndex 0) ^^^ flipSyndrome w (parityIndex 1) ^^^ flipSyndrome w (dataPos w 0) = 0 := by
  cases w <;> decide

/-- Those three flips of a codeword look like one of the global bit: the positions cancel, the parity is odd. -/
theorem diagnose_codewordOf_xor_seven (w : Width) (d : Nat) : diagnose w (codewordOf w d ^^^ 0b111) =
    resultOf w true .single (some (globalIndex w)) (flipBit (codewordOf w d ^^^ 0b111) (globalIndex w)) := by
  obtain ⟨h0, h1, h2⟩ : parityIndex 0 < w.totalBits ∧ parityIndex 1 < w.totalBits ∧ dataPos w 0 < w.totalBits := by
    cases w <;> decide
  apply diagnose_of_zero_odd <;> rw [xor_seven_eq_flips w]
  · rw [syndrome_flipBit, syndrome_flipBit, syndrome_flipBit, syndrome_codewordOf, Nat.zero_xor,
      flipSyndrome_cancel]
  · rw [overallParity_flipBit h2, overallParity_flipBit h1, overallParity_flipBit h0, overallParity_codewordOf]
    rfl

/-- Of those three flips the data word sees the one of data bit 0. -/
theorem extractData_codewordOf_xor_seven {w : Width} {d : Nat} (hd : d < 2 ^ w.dataBits) :
    extractData w (codewordOf w d ^^^ 0b111) = d ^^^ 1 := by
  have hpos : 0 < w.dataBits := by cases w <;> decide
  rw [xor_seven_eq_flips w, extractData_flipBit_dataPos hpos, extractData_flipBit_parityIndex,
    extractData_flipBit_parityIndex, extractData_codewordOf hd]
  rfl

/-- Settles O31: the flip of the global bit repairs nothing in the data word. -/
theorem tripleFlipIsMiscorrected : Obligations.TripleFlipIsMiscorrected := by
  intro s d hd
  have hseven : 0b111 < 2 ^ s.width.totalBits := by cases s.width <;> decide
  refine ⟨_, exec_encode_of_lt hd, _, exec_decode_of_lt (Nat.xor_lt_two_pow (codewordOf_lt s.width d) hseven), ?_⟩
  rw [diagnose_codewordOf_xor_seven, resultOf, extractData_flipBit_of_globalIndex_le (Nat.le_refl _),
    extractData_codewordOf_xor_seven hd]
  exact ⟨rfl, rfl, rfl⟩

/-! ### One and two flips of a codeword (R106) -/

/-- INJECT at a position below `N` completes with that bit flipped (42_inject.md R110). -/
theorem exec_inject_of_lt {s : State} {p : Nat} (h : p < s.width.totalBits) (c : Nat) :
    exec (.inject c p) s = .next { s with response := some (.ok (.codeword (flipBit c p))) } :=
  if_neg (Nat.not_le_of_lt h)

/-- One flip of a codeword leaves the position as its syndrome. -/
theorem syndrome_flipBit_codewordOf (w : Width) (d p : Nat) :
    syndrome w (flipBit (codewordOf w d) p) = flipSyndrome w p := by
  rw [syndrome_flipBit, syndrome_codewordOf, Nat.zero_xor]

/-- The diagnosis of a codeword with one flip: the flip, the codeword and its data. -/
theorem diagnose_flipBit_codewordOf {w : Width} {d p : Nat} (hd : d < 2 ^ w.dataBits) (hp : p < w.totalBits) :
    diagnose w (flipBit (codewordOf w d) p) =
      { errorDetected := true, errorKind := .single, errorPosition := some p
        correctedCodeword := codewordOf w d, originalData := d } := by
  have hsyndrome := syndrome_flipBit_codewordOf w d p
  have hodd : overallParity w (flipBit (codewordOf w d) p) = true := by
    rw [overallParity_flipBit hp, overallParity_codewordOf, Bool.not_false]
  have hlocated : diagnose w (flipBit (codewordOf w d) p) =
      resultOf w true .single (some p) (flipBit (flipBit (codewordOf w d) p) p) := by
    rcases Nat.lt_or_eq_of_le (Nat.le_sub_one_of_lt hp) with hlt | rfl
    · rw [flipSyndrome_of_lt hlt] at hsyndrome
      rw [diagnose_of_ne_zero_odd (by omega) hodd, hsyndrome, Nat.add_sub_cancel]
    · exact diagnose_of_zero_odd (hsyndrome.trans (flipSyndrome_globalIndex w)) hodd
  rw [hlocated, flipBit_flipBit, resultOf, extractData_codewordOf hd]

/-- Settles O32: the diagnosis undoes the flip. -/
theorem singleFlipIsCorrected : Obligations.SingleFlipIsCorrected := by
  intro s d p hd hp
  refine ⟨_, _, exec_encode_of_lt hd, exec_inject_of_lt hp _, ?_⟩
  rw [exec_decode_of_lt (flipBit_lt (codewordOf_lt s.width d) hp), diagnose_flipBit_codewordOf hd hp]

/-- Two flips restore the even parity, and distinct positions do not cancel in the syndrome. -/
theorem diagnose_flipBit_flipBit_codewordOf {w : Width} {p q : Nat} (d : Nat) (hp : p < w.totalBits)
    (hq : q < w.totalBits) (hne : p ≠ q) : diagnose w (flipBit (flipBit (codewordOf w d) p) q) =
      resultOf w true .double none (flipBit (flipBit (codewordOf w d) p) q) := by
  refine diagnose_of_ne_zero_even ?_ ?_
  · rw [syndrome_flipBit, syndrome_flipBit_codewordOf]
    exact Nat.xor_ne_zero_iff.mpr fun h => hne (flipSyndrome_injective hp hq h)
  · rw [overallParity_flipBit hq, overallParity_flipBit hp, overallParity_codewordOf, Bool.not_not]

/-- Settles O33: the diagnosis of two flips is a double error, with the word left as it is. -/
theorem doubleFlipIsDetected : Obligations.DoubleFlipIsDetected := by
  intro s d p q hd hp hq hne
  have hlt := flipBit_lt (flipBit_lt (codewordOf_lt s.width d) hp) hq
  refine ⟨_, _, _, exec_encode_of_lt hd, exec_inject_of_lt hp _, exec_inject_of_lt hq _, _,
    exec_decode_of_lt hlt, ?_⟩
  rw [diagnose_flipBit_flipBit_codewordOf d hp hq hne]
  exact ⟨rfl, rfl, rfl, rfl⟩

end Sys2Proof.Machine
end

section
/-! PROOFS. INJECT (42_inject.md): the one bit it flips, of any word, and that it undoes itself. -/

namespace Sys2Proof.Machine

/-! ### The flipped bit and the others (R113) -/

theorem testBit_flipBit_self (c p : Nat) : (flipBit c p).testBit p = !c.testBit p := by
  rw [testBit_flipBit, decide_eq_true rfl, Bool.xor_true]

theorem testBit_flipBit_of_ne {p j : Nat} (hne : j ≠ p) (c : Nat) : (flipBit c p).testBit j = c.testBit j := by
  rw [testBit_flipBit, decide_eq_false hne.symm, Bool.xor_false]

/-- Settles O36: the word answered is `flipBit c p`, which fits the bus because `p < N ≤ 39`, and
which a second flip at `p` takes back to `c`. -/
theorem injectFlipsExactlyOneBit : Obligations.InjectFlipsExactlyOneBit := by
  intro s c p hp
  have hbus : p < 64 := by have := s.width.totalBits_le; omega
  have hinverse := exec_inject_of_lt hp (flipBit c p)
  rw [flipBit_flipBit] at hinverse
  exact ⟨flipBit c p, exec_inject_of_lt hp c, testBit_flipBit_self c p, fun _ hne => testBit_flipBit_of_ne hne c,
    fun hc => flipBit_lt hc hbus, hinverse⟩

end Sys2Proof.Machine
end

section
/-! PROOFS. The queries (43_classify.md): ISPARITY and POSITIONS read one split of the codeword's indices, the one
that ENCODE writes by and DECODE reads by. -/

namespace Sys2Proof.Machine

/-! ### ISPARITY (R120, R127) -/

/-- ISPARITY of a position below `N` completes with the position's test (R120). -/
theorem exec_isParity_of_lt {s : State} {p : Nat} (h : p < s.width.totalBits) :
    exec (.isParity p) s = .next { s with response := some (.ok (.parity (isParityIndex s.width p))) } :=
  if_neg (Nat.not_le_of_lt h)

/-- The global index is no parity index (R127). -/
theorem isParityIndex_globalIndex (w : Width) : isParityIndex w (globalIndex w) = false := by
  refine Bool.eq_false_iff.mpr fun h => ?_
  obtain ⟨i, hi, heq⟩ := isParityIndex_iff.mp h
  exact (parityIndex_lt w i hi).ne heq.symm

/-- Settles O37: the test holds at the indices `2^i - 1` alone, which stay below the global one. -/
theorem isParityAnswersTheParityIndices : Obligations.IsParityAnswersTheParityIndices := by
  intro s p hp
  refine ⟨isParityIndex s.width p, exec_isParity_of_lt hp, isParityIndex_iff, ?_⟩
  rintro rfl
  exact isParityIndex_globalIndex s.width

/-! ### The three classes (R124) -/

theorem mem_parityPositions {w : Width} {i : Nat} :
    i ∈ parityPositions w ↔ ∃ k, k < w.parityBits ∧ i = 2 ^ k - 1 := by
  simp [parityPositions, parityIndex, eq_comm]

/-- Below the global index, the parity positions are the indices that are not data positions. -/
theorem mem_parityPositions_iff_notMem_dataPositions {w : Width} {i : Nat} (hi : i < globalIndex w) :
    i ∈ parityPositions w ↔ i ∉ dataPositions w := by
  rw [← isPow2_succ_iff_mem_parityPositions hi, mem_dataPositions]
  simp [hi]

theorem globalIndex_notMem_dataPositions (w : Width) : globalIndex w ∉ dataPositions w :=
  fun h => (mem_dataPositions.mp h).1.false

theorem globalIndex_notMem_parityPositions (w : Width) : globalIndex w ∉ parityPositions w := by
  rw [mem_parityPositions, ← isParityIndex_iff, isParityIndex_globalIndex]
  exact Bool.false_ne_true

/-- Settles O13: an index is the global one or below it, and below it a data position or else a parity position. -/
theorem positionsPartitionTheCodeword : Obligations.PositionsPartitionTheCodeword := by
  intro s
  refine ⟨positionClasses s.width, rfl, ?_, ?_, fun i hi => ?_⟩
  · rw [positionClasses_dataPositions, length_dataPositions]
  · simp [positionClasses, parityPositions]
  · rw [positionClasses_dataPositions]
    rcases Nat.lt_or_eq_of_le (Nat.le_sub_one_of_lt hi) with hlt | rfl
    · have hparity := mem_parityPositions_iff_notMem_dataPositions hlt
      by_cases hdata : i ∈ dataPositions s.width
      · exact .inl ⟨hdata, fun h => hparity.mp h hdata, hlt.ne⟩
      · exact .inr (.inl ⟨hdata, hparity.mpr hdata, hlt.ne⟩)
    · exact .inr (.inr ⟨globalIndex_notMem_dataPositions _, globalIndex_notMem_parityPositions _, rfl⟩)

/-! ### The queries, ENCODE and DECODE (R125) -/

/-- ISPARITY's test is membership in POSITIONS' parity list. -/
theorem isParityIndex_eq_decide_mem (w : Width) (q : Nat) :
    isParityIndex w q = decide (q ∈ (positionClasses w).parityPositions) :=
  Bool.eq_iff_iff.mpr ((isParityIndex_iff.trans mem_parityPositions.symm).trans decide_eq_true_iff.symm)

/-- The `k`-th entry of POSITIONS' data list is the place of data bit `k` (10_state.md R28). -/
theorem getElem?_positionClasses_dataPositions {w : Width} {k i : Nat} :
    (positionClasses w).dataPositions[k]? = some i ↔ k < w.dataBits ∧ dataPos w k = i := by
  simp [positionClasses, List.getElem?_eq_some_iff]

/-- Settles O38: data bit `k` is written to and read from `dataPos(k)`, which POSITIONS lists. -/
theorem queriesAgreeWithEncodeAndDecode : Obligations.QueriesAgreeWithEncodeAndDecode := by
  intro s
  refine ⟨positionClasses s.width, rfl, fun q hq => ?_, fun d hd => ?_, fun c hc => ?_⟩
  · rw [exec_isParity_of_lt hq, isParityIndex_eq_decide_mem]
  · refine ⟨_, exec_encode_of_lt hd, fun k i hki => ?_⟩
    obtain ⟨hk, rfl⟩ := getElem?_positionClasses_dataPositions.mp hki
    exact testBit_codewordOf_dataPos hk d
  · refine ⟨_, exec_decode_of_lt hc, fun k i hki => ?_⟩
    obtain ⟨hk, rfl⟩ := getElem?_positionClasses_dataPositions.mp hki
    rw [originalData_diagnose, testBit_extractData hk]

end Sys2Proof.Machine
end

section
/-! PROOFS. The exceptions (60_exceptions.md): which commands raise which error, and that an error leaves nothing
but its response. -/

namespace Sys2Proof.Machine

/-! ### What raises an error (R131 to R133) -/

/-- The decoder refuses exactly the reserved selects (30_encoding.md R56). -/
theorem exists_decode_eq_error_iff {c : Command} : (∃ e, decode c = .error e) ↔ 5 ≤ c.op.toNat := by
  rcases decode_cases c with ⟨hop, e⟩ | ⟨hop, e⟩ | ⟨hop, e⟩ | ⟨hop, e⟩ | ⟨hop, e⟩ | ⟨hop, e⟩
  iterate 5
    · simp [hop, e]
  · exact ⟨fun _ => hop, fun _ => ⟨_, e⟩⟩

/-- A meaning that answers an error has raised it: `InvalidInput` from ENCODE, or `OutOfRange` from INJECT or
ISPARITY, each for the operand that R131 or R132 names. -/
theorem exec_error_cases {i : Instr} {s t : State} {e : CodecError} (h : exec i s = .next t)
    (he : t.response = some (.err e)) : t = s.raise e ∧
      ((e = .invalidInput ∧ ∃ d, i = .encode d ∧ 2 ^ s.width.dataBits ≤ d) ∨
        (e = .outOfRange ∧ ∃ p, s.width.totalBits ≤ p ∧ ((∃ c, i = .inject c p) ∨ i = .isParity p))) := by
  rcases exec_next_cases h with ⟨r, rfl⟩ | ⟨c, -, -, rfl⟩ | ⟨d, hi, hd, rfl⟩ | ⟨p, hp, hi, rfl⟩ <;> cases he
  · exact ⟨rfl, .inl ⟨rfl, d, hi, hd⟩⟩
  · exact ⟨rfl, .inr ⟨rfl, p, hp, hi⟩⟩

/-- Settles O15: ENCODE is the one meaning that raises `InvalidInput`. -/
theorem invalidInputIffOversizedData : Obligations.InvalidInputIffOversizedData := by
  refine ⟨fun s d hd => if_pos hd, fun i s t h he => ?_⟩
  obtain ⟨-, ⟨-, hencode⟩ | ⟨hne, -⟩⟩ := exec_error_cases h he
  · exact hencode
  · cases hne

/-- Settles O35: INJECT and ISPARITY are the two meanings that raise `OutOfRange`. -/
theorem outOfRangeIffPositionBeyond : Obligations.OutOfRangeIffPositionBeyond := by
  refine ⟨fun s c p hp => ⟨if_pos hp, if_pos hp⟩, fun i s t h he => ?_⟩
  obtain ⟨-, ⟨hne, -⟩ | ⟨-, hposition⟩⟩ := exec_error_cases h he
  · cases hne
  · exact hposition

/-- Settles O4: the step raises `IllegalCommand` where the decoder refuses the command, and no meaning raises it. -/
theorem illegalCommandIffReservedOp : Obligations.IllegalCommandIffReservedOp := by
  intro s
  refine ⟨fun hop => ?_, fun t h he => ?_⟩
  · obtain ⟨e, hdec⟩ := exists_decode_eq_error_iff.mpr hop
    exact step_of_reserved hdec
  · cases hdec : decode s.fetch with
    | ok i =>
      obtain ⟨-, ⟨hne, -⟩ | ⟨hne, -⟩⟩ := exec_error_cases ((step_of_decode hdec).symm.trans h) he <;> cases hne
    | error e => exact exists_decode_eq_error_iff.mp ⟨e, hdec⟩

/-! ### What an error leaves (R135, R138) -/

/-- A step that answers an error has done nothing but raise it. -/
theorem eq_raise_of_step {s t : State} {e : CodecError} (h : step s = .next t)
    (he : t.response = some (.err e)) : t = s.raise e := by
  cases hdec : decode s.fetch with
  | ok i => exact (exec_error_cases ((step_of_decode hdec).symm.trans h) he).1
  | error _ =>
    cases (step_of_reserved hdec).symm.trans h
    cases he
    rfl

/-- Presenting the next command ends an error as it ends any response (10_state.md R34). -/
@[simp] theorem State.present_raise (s : State) (e : CodecError) (c : Command) :
    (s.raise e).present c = s.present c := rfl

/-- Settles O55: the error is all that the step has written, and the next command ends it. -/
theorem errorsLeaveNoTrace : Obligations.ErrorsLeaveNoTrace := by
  intro s t e h he
  obtain rfl := eq_raise_of_step h he
  exact ⟨s.raise_eq e, fun c => ⟨s.present_raise e c, congrArg step (s.present_raise e c)⟩⟩

end Sys2Proof.Machine
end

section
/-! PROOFS. Reset and hazards (70_reset_and_hazards.md): the state after reset, that every command completes, what a
settled sample shows, what a result may be trusted for, and what a host program leaves of the block. -/

namespace Sys2Proof.Machine

/-! ### Reset (R151) -/

/-- The response at reset is that of the command on the inputs: the step answers it again. -/
theorem step_resetOf (w : Width) : step (State.resetOf w) = .next (State.resetOf w) := by
  have hdec : decode (State.resetOf w).fetch = .ok (.encode 0) := rfl
  rw [step_of_decode hdec, exec_encode_of_lt (Nat.two_pow_pos _), codewordOf_zero]
  rfl

/-- Settles O49: the reset state is the step of itself, and a step settles the response. -/
theorem resetIsSettled : Obligations.ResetIsSettled := fun w =>
  everyStepSettlesTheResponse _ _ (step_resetOf w)

/-! ### Every command completes (R160) -/

theorem exec_completes (i : Instr) (s : State) : ∃ t, exec i s = .next t := by
  cases i with
  | encode d => rcases execEncode_cases d s with ⟨-, e⟩ | ⟨-, e⟩ <;> exact ⟨_, e⟩
  | decode c => rcases execDecode_cases c s with ⟨-, e⟩ | ⟨-, e⟩ <;> exact ⟨_, e⟩
  | inject c p => rcases execInject_cases c p s with ⟨-, e⟩ | ⟨-, e⟩ <;> exact ⟨_, e⟩
  | isParity p => rcases execIsParity_cases p s with ⟨-, e⟩ | ⟨-, e⟩ <;> exact ⟨_, e⟩
  | positions => exact ⟨_, rfl⟩

theorem step_completes (s : State) : s.Completes := by
  cases hdec : decode s.fetch with
  | ok i =>
    obtain ⟨t, ht⟩ := exec_completes i s
    exact ⟨t, (step_of_decode hdec).trans ht⟩
  | error e => exact ⟨_, step_of_reserved hdec⟩

/-- Settles O51: a meaning answers a next state on each of its paths, and a reserved select on its one. -/
theorem everyCommandCompletes : Obligations.EveryCommandCompletes := fun s =>
  ⟨step_completes s, fun i => exec_completes i s⟩

/-! ### Sampling (R155) -/

/-- From `T_SETTLE` on, a sample of an answered command is its response, and takes nothing from the block. -/
theorem sampleAfter_of_settled {s : State} {o : Reply} (ho : s.response = some o) {held : Nat}
    (hheld : Config.tSettle ≤ held) : sampleAfter held s = (portsOf s.width o.buses, s) := by
  have hports : s.ports = some (portsOf s.width o.buses) := s.ports_eq_some.mpr ⟨o, ho, rfl⟩
  simp [sampleAfter, hports, hheld]

/-- No command changes the input buses. -/
theorem step_port {s t : State} (h : step s = .next t) : t.port = s.port := by
  rw [commandsChangeOnlyTheResponse s t h]

/-- Settles O45: the step settles the response to the command presented, and sampling touches the counter of draws
at most. -/
theorem settledSampleIsTheResponse : Obligations.SettledSampleIsTheResponse := by
  refine ⟨Nat.succ_pos _, fun s t c ht => ?_⟩
  have hwidth : t.width = s.width := (step_width ht).trans (s.present_width c)
  have hport : t.port = c := (step_port ht).trans (s.present_port c)
  obtain ⟨o, ho, hans⟩ := everyStepSettlesTheResponse _ t ht
  rw [hwidth, hport] at hans
  refine ⟨⟨o, ho, hans, fun held hheld => ?_⟩, fun held => ?_⟩
  · rw [sampleAfter_of_settled ho hheld, hwidth]
  · rcases sampleAfter_snd held t with e | e <;> rw [e] <;> exact ⟨hwidth, hport, rfl⟩

/-! ### Trusting a result (R156) -/

/-- Flips below `N` keep a word below `2^N`. -/
theorem foldl_flipBit_lt {n : Nat} {flips : List Nat} (h : ∀ i ∈ flips, i < n) {c : Nat} (hc : c < 2 ^ n) :
    flips.foldl flipBit c < 2 ^ n := by
  induction flips generalizing c with
  | nil => exact hc
  | cons i flips ih =>
    obtain ⟨hi, hflips⟩ := List.forall_mem_cons.mp h
    exact ih hflips (flipBit_lt hc hi)

/-- Settles O34, with a case for no flip, one and two: the first two are undone, the last is a double error. -/
theorem trustedDataIsTheSentData : Obligations.TrustedDataIsTheSentData := by
  intro s d flips hd hnodup hlen hflips
  refine ⟨_, exec_encode_of_lt hd, _, exec_decode_of_lt (foldl_flipBit_lt hflips (codewordOf_lt s.width d)), ?_⟩
  match flips with
  | [] => simp [diagnose_codewordOf hd, DecodingResult.mayTrust]
  | [p] =>
    have hp : p < s.width.totalBits := hflips p (by simp)
    simp [diagnose_flipBit_codewordOf hd hp, DecodingResult.mayTrust]
  | [p, q] =>
    have hp : p < s.width.totalBits := hflips p (by simp)
    have hq : q < s.width.totalBits := hflips q (by simp)
    have hne : p ≠ q := by simpa using hnodup
    simp [diagnose_flipBit_flipBit_codewordOf d hp hq hne, resultOf, DecodingResult.mayTrust]
  | _ :: _ :: _ :: _ => simp at hlen

/-! ### Host programs (R162) -/

/-- Everything the first line of a program that runs to its end can do: its command is one the port can carry, the
step answers it, and the rest runs from there with the line's name bound (30_encoding.md R71). -/
theorem runHostProgram_cons {l : HostLine} {ls : List HostLine} {env env' : HostEnv} {s u : State}
    (h : runHostProgram (l :: ls) env s = some (env', u)) :
    ∃ i t, l.cmd.resolve env = some i ∧ i.wf = true ∧ step (s.present (encode i)) = .next t ∧
      runHostProgram ls (l.bindIn t.response env) t = some (env', u) := by
  rw [runHostProgram] at h
  split at h
  case h_1 => cases h
  case h_2 i hi =>
    split at h
    case isFalse => cases h
    case isTrue hwf =>
      split at h
      case h_1 t ht => exact ⟨i, t, hi, hwf, ht, h⟩
      all_goals cases h

/-- Settles O56, by induction on the lines: each is presented and stepped, and both keep the width. -/
theorem hostProgramsKeepTheConfiguration : Obligations.HostProgramsKeepTheConfiguration := by
  intro ls
  induction ls with
  | nil =>
    intro env env' s t h
    cases h
    rfl
  | cons l ls ih =>
    intro env env' s u h
    obtain ⟨i, t, -, -, hstep, hrest⟩ := runHostProgram_cons h
    have hwidth : t.width = s.width := (step_width hstep).trans (s.present_width _)
    exact (ih _ _ _ _ hrest).trans hwidth

end Sys2Proof.Machine
end
